-- ==== Sys2Proof/Word.lean ====
section
/-! DEFINITION. The unit of storage and transfer: one byte (`00_scope.md` R8, `20_memory.md` R44). -/

namespace Sys2Proof

/-- A *byte* is an unsigned 8-bit value, bit 7 the most significant (R8). -/
abbrev Byte := BitVec 8

end Sys2Proof
end

