-- ==== Sys2Proof/Syntax.lean ====
section
/-! DEFINITION. The host commands: the block's instructions, one constructor per row of the opcode
map of `30_encoding.md` R68, and the opcodes by name. -/

namespace Sys2Proof

/-- A host command with its operands. `t` is a timeout in ticks, `i` an index, `c` a wire command
code, `params` the parameter bytes (their number is the operand `n`). -/
inductive Instr
  | rxStart (t : BitVec 32)
  | rxStatus
  | rxCount
  | rxRead (i : Byte)
  | rxElapsed
  | validate
  | frHeader
  | frType
  | frCommand
  | frPlen
  | frParam (i : Byte)
  | frChecksum
  | frTerminator
  | frChkcalc
  | encBuild (c : Byte) (params : List Byte)
  | encGetModuleInfo
  | encSinglePoll
  | encStartMultiPoll
  | encStopMultiPoll
  | encLen
  | encRead (i : Byte)
  deriving DecidableEq, Repr

/-- The names of the 21 opcodes, in the order of the opcode map. -/
inductive Opcode
  | rxStart | rxStatus | rxCount | rxRead | rxElapsed
  | validate | frHeader | frType | frCommand | frPlen | frParam | frChecksum | frTerminator
  | frChkcalc
  | encBuild | encGetModuleInfo | encSinglePoll | encStartMultiPoll | encStopMultiPoll | encLen
  | encRead
  deriving DecidableEq, Repr

/-- The row of the opcode map a command belongs to. -/
def Instr.opcode : Instr → Opcode
  | .rxStart _ => .rxStart
  | .rxStatus => .rxStatus
  | .rxCount => .rxCount
  | .rxRead _ => .rxRead
  | .rxElapsed => .rxElapsed
  | .validate => .validate
  | .frHeader => .frHeader
  | .frType => .frType
  | .frCommand => .frCommand
  | .frPlen => .frPlen
  | .frParam _ => .frParam
  | .frChecksum => .frChecksum
  | .frTerminator => .frTerminator
  | .frChkcalc => .frChkcalc
  | .encBuild _ _ => .encBuild
  | .encGetModuleInfo => .encGetModuleInfo
  | .encSinglePoll => .encSinglePoll
  | .encStartMultiPoll => .encStartMultiPoll
  | .encStopMultiPoll => .encStopMultiPoll
  | .encLen => .encLen
  | .encRead _ => .encRead

end Sys2Proof
end

