-- ==== Sys2Proof/WellFormed.lean ====
section
/-! DEFINITION. When a host command fits its encoding. The operands `t`, `i` and `c` fit by their
types; only the parameter list of ENC_BUILD can be too long for its 16-bit count (R68, R80). -/

namespace Sys2Proof

/-- The operand that the encoding can fail to hold: the parameter count `n` has 16 bits. -/
def Instr.wellFormed : Instr → Bool
  | .encBuild _ params => decide (params.length ≤ 65535)
  | .rxStart _ | .rxStatus | .rxCount | .rxRead _ | .rxElapsed => true
  | .validate | .frHeader | .frType | .frCommand | .frPlen | .frParam _ => true
  | .frChecksum | .frTerminator | .frChkcalc => true
  | .encGetModuleInfo | .encSinglePoll | .encStartMultiPoll | .encStopMultiPoll => true
  | .encLen | .encRead _ => true

end Sys2Proof
end

