-- ==== Sys2Proof/Decode.lean ====
section
/-! DEFINITION. From the bytes of a host command to an instruction or a rejection by name, and back
(`30_encoding.md` R66, R68 to R70, `60_exceptions.md` R212 items 1 to 3). Total on every byte string. -/

namespace Sys2Proof

/-! ## Byte order: every multi-byte operand is big-endian (R42, R66) -/

/-- The 16-bit value whose bits 15:8 are `hi` and bits 7:0 are `lo`. -/
def be16 (hi lo : Byte) : BitVec 16 := hi ++ lo

/-- The 32-bit value of four bytes, the most significant first. -/
def be32 (b3 b2 b1 b0 : Byte) : BitVec 32 := b3 ++ b2 ++ b1 ++ b0

/-- The two bytes of a 16-bit value, the most significant first. -/
def bytes16 (v : BitVec 16) : List Byte := [v.extractLsb' 8 8, v.extractLsb' 0 8]

/-- The four bytes of a 32-bit value, the most significant first. -/
def bytes32 (v : BitVec 32) : List Byte :=
  [v.extractLsb' 24 8, v.extractLsb' 16 8, v.extractLsb' 8 8, v.extractLsb' 0 8]

/-! ## The opcode map (R68) -/

/-- The opcode byte of each row of the opcode map. -/
def Opcode.code : Opcode → Byte
  | .rxStart => 0x10#8
  | .rxStatus => 0x11#8
  | .rxCount => 0x12#8
  | .rxRead => 0x13#8
  | .rxElapsed => 0x14#8
  | .validate => 0x20#8
  | .frHeader => 0x21#8
  | .frType => 0x22#8
  | .frCommand => 0x23#8
  | .frPlen => 0x24#8
  | .frParam => 0x25#8
  | .frChecksum => 0x26#8
  | .frTerminator => 0x27#8
  | .frChkcalc => 0x28#8
  | .encBuild => 0x30#8
  | .encGetModuleInfo => 0x31#8
  | .encSinglePoll => 0x32#8
  | .encStartMultiPoll => 0x33#8
  | .encStopMultiPoll => 0x34#8
  | .encLen => 0x35#8
  | .encRead => 0x36#8

/-- Every row of the opcode map. -/
def Opcode.all : List Opcode :=
  [.rxStart, .rxStatus, .rxCount, .rxRead, .rxElapsed, .validate, .frHeader, .frType, .frCommand,
    .frPlen, .frParam, .frChecksum, .frTerminator, .frChkcalc, .encBuild, .encGetModuleInfo,
    .encSinglePoll, .encStartMultiPoll, .encStopMultiPoll, .encLen, .encRead]

/-- The row whose opcode byte is `b`; none for the illegal opcodes of R69. -/
def Opcode.ofByte (b : Byte) : Option Opcode := Opcode.all.find? fun o => o.code == b

/-- The length in bytes of a command of row `o`; `n` is the parameter count of ENC_BUILD, which
alone varies in length (R70). -/
def Opcode.commandLength (o : Opcode) (n : Nat) : Nat :=
  match o with
  | .rxStart => 5
  | .rxRead | .frParam | .encRead => 2
  | .encBuild => 4 + n
  | .rxStatus | .rxCount | .rxElapsed | .validate | .frHeader | .frType | .frCommand | .frPlen => 1
  | .frChecksum | .frTerminator | .frChkcalc => 1
  | .encGetModuleInfo | .encSinglePoll | .encStartMultiPoll | .encStopMultiPoll | .encLen => 1

/-! ## The decoder -/

/-- Why a byte string is no command. The first two and the last answer FORMAT, the third ILLEGAL
(R212); the names follow R69 and R70. -/
inductive DecodeError
  /-- R212 item 1: the command is empty. -/
  | emptyCommand
  /-- R212 item 1: ENC_BUILD is shorter than 4 bytes. -/
  | shortBuild
  /-- R212 item 2: byte 0 is not an assigned opcode. -/
  | illegalOpcode
  /-- R212 item 3: the length differs from the opcode's length. -/
  | wrongLength
  deriving DecidableEq, Repr

/-- A command whose only byte is its opcode. -/
def noOperand (i : Instr) : List Byte → Except DecodeError Instr
  | [] => .ok i
  | _ :: _ => .error .wrongLength

/-- A command whose one operand is byte 1. -/
def oneByteOperand (f : Byte → Instr) : List Byte → Except DecodeError Instr
  | [i] => .ok (f i)
  | [] | _ :: _ :: _ => .error .wrongLength

/-- RX_START: `t` occupies bytes 1 to 4, bits 31:24 in byte 1. -/
def timeoutOperand : List Byte → Except DecodeError Instr
  | [b3, b2, b1, b0] => .ok (.rxStart (be32 b3 b2 b1 b0))
  | _ => .error .wrongLength

/-- ENC_BUILD: `c` is byte 1, `n` bytes 2 and 3, `p_k` byte 4+k; the length is `4 + n`. -/
def buildOperands : List Byte → Except DecodeError Instr
  | c :: nHi :: nLo :: params =>
    if params.length = (be16 nHi nLo).toNat then .ok (.encBuild c params) else .error .wrongLength
  | _ => .error .wrongLength

/-- The operand bytes of each row (R68); any other length of them is FORMAT (R70). -/
def decodeOperands (o : Opcode) (args : List Byte) : Except DecodeError Instr :=
  match o with
  | .rxStart => timeoutOperand args
  | .rxStatus => noOperand .rxStatus args
  | .rxCount => noOperand .rxCount args
  | .rxRead => oneByteOperand .rxRead args
  | .rxElapsed => noOperand .rxElapsed args
  | .validate => noOperand .validate args
  | .frHeader => noOperand .frHeader args
  | .frType => noOperand .frType args
  | .frCommand => noOperand .frCommand args
  | .frPlen => noOperand .frPlen args
  | .frParam => oneByteOperand .frParam args
  | .frChecksum => noOperand .frChecksum args
  | .frTerminator => noOperand .frTerminator args
  | .frChkcalc => noOperand .frChkcalc args
  | .encBuild => buildOperands args
  | .encGetModuleInfo => noOperand .encGetModuleInfo args
  | .encSinglePoll => noOperand .encSinglePoll args
  | .encStartMultiPoll => noOperand .encStartMultiPoll args
  | .encStopMultiPoll => noOperand .encStopMultiPoll args
  | .encLen => noOperand .encLen args
  | .encRead => oneByteOperand .encRead args

/-- The decoder, its checks in the order of R212. -/
def decode : List Byte → Except DecodeError Instr
  | [] => .error .emptyCommand
  | op :: args =>
    if op = Opcode.encBuild.code ∧ args.length < 3 then .error .shortBuild
    else
      match Opcode.ofByte op with
      | none => .error .illegalOpcode
      | some o => decodeOperands o args

/-! ## The encoder -/

/-- The operand bytes of a command, in the order of R68. -/
def Instr.operandBytes : Instr → List Byte
  | .rxStart t => bytes32 t
  | .rxRead i | .frParam i | .encRead i => [i]
  | .encBuild c params => c :: (bytes16 (BitVec.ofNat 16 params.length) ++ params)
  | .rxStatus | .rxCount | .rxElapsed | .validate | .frHeader | .frType | .frCommand | .frPlen => []
  | .frChecksum | .frTerminator | .frChkcalc => []
  | .encGetModuleInfo | .encSinglePoll | .encStartMultiPoll | .encStopMultiPoll | .encLen => []

/-- The bytes of a command: the opcode, then the operands (R66). -/
def encode (i : Instr) : List Byte := i.opcode.code :: i.operandBytes

/-! ## The words of the opcode table -/

/-- Byte `k` of a table word of `nbits` bits: byte 0 holds bits 7:0, byte 1 bits 15:8, and every
byte above `nbits` is 0. -/
def tableByte (nbits w k : Nat) : Byte := if k < nbits / 8 then BitVec.ofNat 8 (w >>> (8 * k)) else 0#8

/-- The command a table word stands for, completed with zero operand bytes to the length its opcode
(and, for ENC_BUILD, its count) gives it. Log 17. -/
def tableBytes (nbits w : Nat) : List Byte :=
  let len :=
    match Opcode.ofByte (tableByte nbits w 0) with
    | some o => o.commandLength (be16 (tableByte nbits w 2) (tableByte nbits w 3)).toNat
    | none => 0
  (List.range (max (nbits / 8) len)).map (tableByte nbits w)

/-- What the decoder reads from a word of the opcode table; none where it rejects it. -/
def decodeTableWord (nbits w : Nat) : Option Instr := (decode (tableBytes nbits w)).toOption

end Sys2Proof
end

