-- ==== Sys2Proof/Config.lean ====
section
/-! DEFINITION. The implementation parameters of `00_scope.md` section 5: those the spec fixes, and
the two it leaves OPEN, which are opaque constants here. -/

namespace Sys2Proof

/-- `P_RX_CAP`, the receive buffer's capacity in bytes (R2). -/
abbrev Config.rxCap : Nat := 64

/-- `P_RX_MAX = P_RX_CAP - 1`, the most bytes a receive attempt stores (R3, C5). -/
abbrev Config.rxMax : Nat := 63

/-- `P_ENC_CAP`, the encoder output buffer's size in bytes (R5). -/
abbrev Config.encCap : Nat := 64

/-- `P_ENC_MAXP`, the most parameter bytes ENC_BUILD accepts (R5). -/
abbrev Config.encMaxParams : Nat := 56

/-- `HDR`, the header byte of every frame (R4). -/
abbrev Config.header : Byte := 0xAA#8

/-- `TERM`, the terminator byte of every frame (R4). -/
abbrev Config.terminator : Byte := 0xDD#8

/-- `TYPE_CMD`, the type byte the encoder writes (R4). -/
abbrev Config.typeCommand : Byte := 0x00#8

/-- `P_TICK_UNIT`, OPEN: how long one tick lasts, in a unit of real time the spec does not name.
No step reads it (R6, K1-7). Log 10. -/
opaque Config.tickUnit : Nat

/-- `P_CHAN_CAP`, OPEN: the depth of the channel's receive queue, `none` when it is unbounded.
No step reads it: what the channel does when full lies outside the block (R7, K1-8). Log 9. -/
opaque Config.chanCap : Option Nat

end Sys2Proof
end

