-- ==== Sys2Proof/Machine/State.lean ====
section
/-! DEFINITION. The state: the block's registers (`10_state.md`), the channel's receive queue (R21),
and the model's own fields for the agents' inputs and the host's received responses. Plain data. -/

namespace Sys2Proof.Machine

/-- One of the two 64-byte arrays, RXBUF or ENCBUF (R2, R5, R40). -/
abbrev Buffer := Vector Byte Config.rxCap

/-- One line of the host's script (R9, R66, R49). Log 4, log 12, log 14, log 21. -/
inductive HostLine
  /-- Issue one host command: its bytes, delivered whole. -/
  | command (bytes : List Byte)
  /-- Re-issue RX_STATUS until RXSTAT.STATE = DONE (`await`, R81). R9 leaves open which conditions an
`await` may name; no other one can be written here, by the model's choice. Log 12, log 21. -/
  | awaitDone
  /-- Hand bytes to the channel's `writeBytes`. -/
  | transmit (bytes : List Byte)
  deriving DecidableEq, Repr

/-- Whose step comes next (R1, R51). Log 1. -/
inductive Turn
  /-- The host performs the next line of its script. -/
  | host
  /-- The receive engine takes its step, if it is enabled. -/
  | engine
  /-- The channel appends one byte, of any value, to its receive queue. -/
  | channel (b : Byte)
  /-- Time delivers one tick. -/
  | time
  /-- A reset (power-on or a reset input). Log 19. -/
  | reset
  deriving DecidableEq, Repr

/-- The machine's state. -/
structure State where
  /-- RXBUF (R11). -/
  rxbuf : Buffer
  /-- RXCNT (R12). -/
  rxcnt : BitVec 7
  /-- RXSTAT (R13): STATE in bits 1:0, RES in bits 6:4. -/
  rxstat : Byte
  /-- TIMEOUT (R14). -/
  timeout : BitVec 32
  /-- ELAPSED (R15). -/
  elapsed : BitVec 32
  /-- VSTAT (R16): REASON in bits 2:0, CHECKED in bit 6, VALID in bit 7. -/
  vstat : Byte
  /-- CHKCALC (R17). -/
  chkcalc : Byte
  /-- ENCBUF (R18). -/
  encbuf : Buffer
  /-- ENCLEN (R19). -/
  enclen : BitVec 7
  /-- The channel's receive queue, oldest byte first (R21). Environment state. -/
  channel : List Byte
  /-- The bytes the host has handed to the channel's `writeBytes`, oldest first. The model's own. -/
  sent : List Byte
  /-- Every response the host has received, newest first. The model's own. -/
  responses : List (List Byte)
  /-- The lines the host has yet to perform, oldest first. The model's own. -/
  script : List HostLine
  /-- The order in which the agents move, next first. The model's own. -/
  turns : List Turn
  deriving DecidableEq, Repr

/-- The reasons a step can stop the machine: none. "Nothing in this core is fatal"
(`60_exceptions.md`), and every error is a status code, a RES or a VSTAT value. So no step raises a
fault, and whether one would be safe does not arise. Log 16. -/
inductive Fault
  deriving DecidableEq, Repr

/-- The reasons an instruction has no meaning. -/
inductive Refusal
  /-- Raised only by an arm of `exec` whose instruction has no meaning yet; no arm is so. Safe: the
  machine stops where the hardware goes on. -/
  | notModelled (mnemonic : String)
  deriving DecidableEq, Repr

/-- The outcome of a step. -/
abbrev Result := Host.Outcome State Fault Refusal

/-- The state right after reset (`70_reset_and_hazards.md` R240). The channel, which reset does not
touch (R241), and the model's own fields start empty here. Log 5. -/
def State.reset : State where
  rxbuf := Vector.replicate Config.rxCap 0x00#8
  rxcnt := 0#7
  rxstat := 0x00#8
  timeout := 0#32
  elapsed := 0#32
  vstat := 0x00#8
  chkcalc := 0x00#8
  encbuf := Vector.replicate Config.encCap 0x00#8
  enclen := 0#7
  channel := []
  sent := []
  responses := []
  script := []
  turns := []

end Sys2Proof.Machine
end

