-- ==== Sys2Proof/Machine/Flags.lean ====
section
/-! DEFINITION. The two status registers' fields (`10_state.md` R13, R16) and the checksum sum
(`30_encoding.md` R62): every flag computation the spec gives. -/

namespace Sys2Proof.Machine

/-! ## RXSTAT (R13) -/

/-- The values of RXSTAT.STATE; 3 never occurs. -/
inductive RecvState
  | idle | receiving | done
  deriving DecidableEq, Repr

/-- The encoding of STATE. -/
def RecvState.code : RecvState → BitVec 2
  | .idle => 0#2
  | .receiving => 1#2
  | .done => 2#2

/-- The values of RXSTAT.RES; 5 to 7 never occur. -/
inductive RecvResult
  | none | frame | timeout | overflow | badframe
  deriving DecidableEq, Repr

/-- The encoding of RES. -/
def RecvResult.code : RecvResult → BitVec 3
  | .none => 0#3
  | .frame => 1#3
  | .timeout => 2#3
  | .overflow => 3#3
  | .badframe => 4#3

/-- STATE, bits 1:0. -/
def rxstatState (r : Byte) : BitVec 2 := r.extractLsb' 0 2

/-- RES, bits 6:4. -/
def rxstatRes (r : Byte) : BitVec 3 := r.extractLsb' 4 3

/-- `STATE <- st; RES <- res`. No step writes the reserved bits 7 and 3:2 (K1-12). Log 7. -/
def rxstatWrite (r : Byte) (st : RecvState) (res : RecvResult) : Byte :=
  r.extractLsb' 7 1 ++ res.code ++ r.extractLsb' 2 2 ++ st.code

/-- `RXSTAT.STATE = RECEIVING`: a receive attempt is in progress. -/
def State.receiving (s : State) : Bool := rxstatState s.rxstat == RecvState.receiving.code

/-- `RXSTAT.STATE = DONE`: the last attempt is complete. -/
def State.done (s : State) : Bool := rxstatState s.rxstat == RecvState.done.code

/-! ## VSTAT (R16) -/

/-- The values of VSTAT.REASON; 6 and 7 never occur. -/
inductive Reason
  | ok | short | header | length | terminator | checksum
  deriving DecidableEq, Repr

/-- The encoding of REASON. -/
def Reason.code : Reason → BitVec 3
  | .ok => 0#3
  | .short => 1#3
  | .header => 2#3
  | .length => 3#3
  | .terminator => 4#3
  | .checksum => 5#3

/-- VALID, bit 7. -/
def vstatValid (v : Byte) : Bool := v.getLsbD 7

/-- CHECKED, bit 6. -/
def vstatChecked (v : Byte) : Bool := v.getLsbD 6

/-- REASON, bits 2:0. -/
def vstatReason (v : Byte) : BitVec 3 := v.extractLsb' 0 3

/-- VALIDATE's write of VALID, CHECKED and REASON (R140). No command writes the reserved bits 5:3
(K1-12). Log 7. -/
def vstatWrite (v : Byte) (reason : Reason) : Byte :=
  BitVec.ofBool (reason == .ok) ++ 1#1 ++ v.extractLsb' 3 3 ++ reason.code

/-! ## The checksum generator (R62) -/

/-- The sum of the bytes over the natural numbers, reduced modulo 256 once. -/
def sumMod256 (bytes : List Byte) : Byte := BitVec.ofNat 8 (bytes.map BitVec.toNat).sum

end Sys2Proof.Machine
end

