-- ==== Sys2Proof/Machine/Ops.lean ====
section
/-! DEFINITION. The shared operations: the two byte arrays (`20_memory.md` R40, R44), the channel
primitives (R45 to R48), answering a host command, and `raise Status(code)`, which the block has in
place of taking an exception (`00_scope.md` R8, `60_exceptions.md` R210, R211). -/

namespace Sys2Proof.Machine

/-! ## The byte arrays -/

/-- `MemRead(X, i, 1)`: byte `i` of an array. No index wraps (R40), and one outside the array reads
0x00 (D15); no reachable state reads there. Log 6. -/
def byteAt (buf : Buffer) (i : Nat) : Byte := if h : i < Config.rxCap then buf[i] else 0x00#8

/-- `MemWrite(X, i, 1, v)`: byte `i` of an array becomes `v`. -/
def writeByte (buf : Buffer) (i : Nat) (v : Byte) : Buffer := buf.setIfInBounds i v

/-- The array that holds `bytes` from index 0 on and 0x00 after them. -/
def bufferOf (bytes : List Byte) : Buffer :=
  ⟨((List.range Config.rxCap).map fun i => bytes.getD i 0x00#8).toArray, by simp⟩

/-- The cleared array: every byte 0x00 (D9). -/
def clearedBuffer : Buffer := bufferOf []

/-! ## Updates of one field -/

/-- The state with the channel's queue holding `q`. -/
def State.withChannel (s : State) (q : List Byte) : State := { s with channel := q }

/-- The state with ELAPSED holding `e`. -/
def State.withElapsed (s : State) (e : BitVec 32) : State := { s with elapsed := e }

/-- The state with `turns` still to come. -/
def State.withTurns (s : State) (turns : List Turn) : State := { s with turns := turns }

/-- The state with the lines of `script` still to come. -/
def State.withScript (s : State) (script : List HostLine) : State := { s with script := script }

/-! ## The channel primitives -/

/-- `ChanAvail()`: the number of bytes in the receive queue (R45). -/
def chanAvail (s : State) : Nat := s.channel.length

/-- `ChanPop()`: the oldest byte and the state without it. `none` on an empty queue, where the
primitive has no meaning and is never evaluated (R46, K1-5). -/
def chanPop (s : State) : Option (Byte × State) :=
  match s.channel with
  | [] => none
  | b :: rest => some (b, s.withChannel rest)

/-- `ChanFlush()`: removes every byte present, within the step that calls it (R47). -/
def chanFlush (s : State) : State := s.withChannel []

/-- The channel's own step: one byte joins the tail of the queue, in any state of the block (R48). -/
def chanAppend (b : Byte) (s : State) : State := s.withChannel (s.channel ++ [b])

/-! ## Responses and status codes -/

/-- The status codes of R210. -/
inductive Status
  | ok | busy | range | illegal | format
  deriving DecidableEq, Repr

/-- The byte of each status code (R210). -/
def Status.code : Status → Byte
  | .ok => 0x00#8
  | .busy => 0x01#8
  | .range => 0x02#8
  | .illegal => 0x03#8
  | .format => 0x04#8

/-- The host receives one response (R67). Log 3. -/
def State.withResponse (s : State) (r : List Byte) : State := { s with responses := r :: s.responses }

/-- `respond(b0, b1, ...)`: status OK, then the result bytes (R8, R67). -/
def respond (result : List Byte) (s : State) : Result :=
  .next (s.withResponse (Status.ok.code :: result))

/-- `raise Status(code)`: the command has no effect and its response is the one byte `code` (R8,
R211). -/
def raiseStatus (c : Status) (s : State) : Result := .next (s.withResponse [c.code])

/-- The first line of every command of the BUSY set: it is refused while an attempt runs (R213). -/
def unlessReceiving (act : State → Result) (s : State) : Result :=
  if s.receiving then raiseStatus .busy s else act s

end Sys2Proof.Machine
end

