-- ==== Sys2Proof/Machine/Operands.lean ====
section
/-! DEFINITION. What the commands read: a stored byte by its offset, the frame's parameter length
(R141), the frame evaluation predicate (R106), and the checksum of a stored frame (R62). -/

namespace Sys2Proof.Machine

/-- `i < RXCNT ? RXBUF[i] : 0x00`, the read of RX_READ (R111) and of every frame accessor (R150 to
R156). -/
def storedByte (s : State) (i : Nat) : Byte :=
  if i < s.rxcnt.toNat then byteAt s.rxbuf i else 0x00#8

/-- `i < ENCLEN ? ENCBUF[i] : 0x00` (R186). -/
def builtByte (s : State) (i : Nat) : Byte :=
  if i < s.enclen.toNat then byteAt s.encbuf i else 0x00#8

/-- `FramePlen()`: the big-endian parameter length at offsets 3 and 4, or 0 where they are not both
stored (R141, R61). -/
def framePlen (s : State) : BitVec 16 :=
  if 5 ≤ s.rxcnt.toNat then be16 (byteAt s.rxbuf 3) (byteAt s.rxbuf 4) else 0#16

/-- `FrameOK()` (R106). -/
def frameOK (s : State) : Bool :=
  decide (1 < s.rxcnt.toNat) && byteAt s.rxbuf 0 == Config.header
    && byteAt s.rxbuf (s.rxcnt.toNat - 1) == Config.terminator

/-- The bytes the checksum covers: offsets 1 to `4 + plen` (R62). -/
def checksummedBytes (buf : Buffer) (plen : Nat) : List Byte :=
  (List.range (4 + plen)).map fun k => byteAt buf (1 + k)

/-- `checksum8(f, plen)` of the frame in an array (R62). -/
def checksum8 (buf : Buffer) (plen : Nat) : Byte := sumMod256 (checksummedBytes buf plen)

end Sys2Proof.Machine
end

