-- ==== Sys2Proof/Machine/Encoder.lean ====
section
/-! DEFINITION. The command frame encoder (`43_encoder.md` R180 to R186). -/

namespace Sys2Proof.Machine

/-- The frame ENC_BUILD writes: header, type, command, length, parameters, checksum, terminator
(R180, R60). The parameter bytes are emitted as they are (R188). -/
def buildFrame (c : Byte) (params : List Byte) : List Byte :=
  let summed := Config.typeCommand :: c :: (bytes16 (BitVec.ofNat 16 params.length) ++ params)
  Config.header :: (summed ++ [sumMod256 summed, Config.terminator])

/-- What a successful build writes: the frame in ENCBUF, zeros after it, and its length in ENCLEN
(R180, D20). -/
def recordFrame (c : Byte) (params : List Byte) (s : State) : State :=
  { s with
    encbuf := bufferOf (buildFrame c params)
    enclen := BitVec.ofNat 7 (7 + params.length) }

/-- ENC_BUILD's effect for its operands: RANGE above 56 parameters, and then nothing is written
(R180). It is never refused with BUSY (R187). Log 18. -/
def encodeFrame (c : Byte) (params : List Byte) (s : State) : Result :=
  if Config.encMaxParams < params.length then raiseStatus .range s
  else respond [] (recordFrame c params s)

/-- ENC_BUILD (R180). -/
def execEncBuild (c : Byte) (params : List Byte) (s : State) : Result := encodeFrame c params s

/-- ENC_GET_MODULE_INFO (R181). -/
def execEncGetModuleInfo (s : State) : Result := encodeFrame 0x03#8 [0x00#8] s

/-- ENC_SINGLE_POLL (R182). -/
def execEncSinglePoll (s : State) : Result := encodeFrame 0x22#8 [] s

/-- ENC_START_MULTI_POLL (R183). -/
def execEncStartMultiPoll (s : State) : Result := encodeFrame 0x27#8 [0x22#8, 0xFF#8, 0xFF#8] s

/-- ENC_STOP_MULTI_POLL (R184). -/
def execEncStopMultiPoll (s : State) : Result := encodeFrame 0x28#8 [] s

/-- ENC_LEN (R185): `zext_8(ENCLEN)`. -/
def execEncLen (s : State) : Result := respond [s.enclen.setWidth 8] s

/-- ENC_READ (R186). -/
def execEncRead (i : Byte) (s : State) : Result := respond [builtByte s i.toNat] s

end Sys2Proof.Machine
end

