-- ==== Sys2Proof/Machine/Receiver.lean ====
section
/-! DEFINITION. The receiver's host commands (`41_receiver.md` R100, R109 to R112). -/

namespace Sys2Proof.Machine

/-- What RX_START writes: a cleared buffer and validation result, the new window, and an attempt that
runs, or is complete at once when the window is empty (R100). -/
def startAttempt (t : BitVec 32) (s : State) : State :=
  { s with
    timeout := t
    elapsed := 0#32
    rxbuf := clearedBuffer
    rxcnt := 0#7
    vstat := 0x00#8
    chkcalc := 0x00#8
    rxstat :=
      if t = 0#32 then rxstatWrite s.rxstat .done .timeout
      else rxstatWrite s.rxstat .receiving .none }

/-- RX_START (R100). -/
def execRxStart (t : BitVec 32) (s : State) : Result :=
  unlessReceiving (fun s => respond [] (startAttempt t s)) s

/-- RX_STATUS (R109). -/
def execRxStatus (s : State) : Result := respond [s.rxstat] s

/-- RX_COUNT (R110): `zext_8(RXCNT)`. -/
def execRxCount (s : State) : Result := respond [s.rxcnt.setWidth 8] s

/-- RX_READ (R111). -/
def execRxRead (i : Byte) (s : State) : Result :=
  unlessReceiving (fun s => respond [storedByte s i.toNat] s) s

/-- RX_ELAPSED (R112). -/
def execRxElapsed (s : State) : Result := respond (bytes32 s.elapsed) s

end Sys2Proof.Machine
end

