-- ==== Sys2Proof/Machine/Validator.lean ====
section
/-! DEFINITION. The validator and the frame accessors (`42_validator.md` R140, R150 to R157). -/

namespace Sys2Proof.Machine

/-- VALIDATE's checks in their order, and the checksum it generates: 0x00 where a check before the
checksum failed (R140, R17). -/
def judge (s : State) : Reason × Byte :=
  let n := s.rxcnt.toNat
  let plen := (framePlen s).toNat
  if n < 7 then (.short, 0x00#8)
  else if byteAt s.rxbuf 0 ≠ Config.header then (.header, 0x00#8)
  else if 7 + plen ≠ n then (.length, 0x00#8)
  else if byteAt s.rxbuf (6 + plen) ≠ Config.terminator then (.terminator, 0x00#8)
  else
    let sum := checksum8 s.rxbuf plen
    (if sum = byteAt s.rxbuf (5 + plen) then .ok else .checksum, sum)

/-- What VALIDATE writes: VSTAT and CHKCALC (R140). -/
def recordVerdict (s : State) : State :=
  { s with vstat := vstatWrite s.vstat (judge s).1, chkcalc := (judge s).2 }

/-- VALIDATE (R140): an invalid frame is not an error status; the response is OK and VSTAT. -/
def execValidate (s : State) : Result :=
  unlessReceiving (fun s => respond [(recordVerdict s).vstat] (recordVerdict s)) s

/-- FR_HEADER (R150). -/
def execFrHeader (s : State) : Result := unlessReceiving (fun s => respond [storedByte s 0] s) s

/-- FR_TYPE (R151). -/
def execFrType (s : State) : Result := unlessReceiving (fun s => respond [storedByte s 1] s) s

/-- FR_COMMAND (R152). -/
def execFrCommand (s : State) : Result := unlessReceiving (fun s => respond [storedByte s 2] s) s

/-- FR_PLEN (R153): the raw field, big-endian. -/
def execFrPlen (s : State) : Result := unlessReceiving (fun s => respond (bytes16 (framePlen s)) s) s

/-- FR_PARAM (R154). -/
def execFrParam (i : Byte) (s : State) : Result :=
  unlessReceiving
    (fun s =>
      respond [if i.toNat < (framePlen s).toNat then storedByte s (5 + i.toNat) else 0x00#8] s) s

/-- FR_CHECKSUM (R155). -/
def execFrChecksum (s : State) : Result :=
  unlessReceiving (fun s => respond [storedByte s (5 + (framePlen s).toNat)] s) s

/-- FR_TERMINATOR (R156). -/
def execFrTerminator (s : State) : Result :=
  unlessReceiving (fun s => respond [storedByte s (6 + (framePlen s).toNat)] s) s

/-- FR_CHKCALC (R157). -/
def execFrChkcalc (s : State) : Result := unlessReceiving (fun s => respond [s.chkcalc] s) s

end Sys2Proof.Machine
end

