-- ==== Sys2Proof/Machine/Dispatch.lean ====
section
/-! DEFINITION. One arm per host command, each one direct call of its meaning. -/

namespace Sys2Proof.Machine

def exec (i : Instr) (s : State) : Host.Outcome State Fault Refusal :=
  match i with
  | .rxStart t => Sys2Proof.Machine.execRxStart t s
  | .rxStatus => Sys2Proof.Machine.execRxStatus s
  | .rxCount => Sys2Proof.Machine.execRxCount s
  | .rxRead k => Sys2Proof.Machine.execRxRead k s
  | .rxElapsed => Sys2Proof.Machine.execRxElapsed s
  | .validate => Sys2Proof.Machine.execValidate s
  | .frHeader => Sys2Proof.Machine.execFrHeader s
  | .frType => Sys2Proof.Machine.execFrType s
  | .frCommand => Sys2Proof.Machine.execFrCommand s
  | .frPlen => Sys2Proof.Machine.execFrPlen s
  | .frParam k => Sys2Proof.Machine.execFrParam k s
  | .frChecksum => Sys2Proof.Machine.execFrChecksum s
  | .frTerminator => Sys2Proof.Machine.execFrTerminator s
  | .frChkcalc => Sys2Proof.Machine.execFrChkcalc s
  | .encBuild c params => Sys2Proof.Machine.execEncBuild c params s
  | .encGetModuleInfo => Sys2Proof.Machine.execEncGetModuleInfo s
  | .encSinglePoll => Sys2Proof.Machine.execEncSinglePoll s
  | .encStartMultiPoll => Sys2Proof.Machine.execEncStartMultiPoll s
  | .encStopMultiPoll => Sys2Proof.Machine.execEncStopMultiPoll s
  | .encLen => Sys2Proof.Machine.execEncLen s
  | .encRead k => Sys2Proof.Machine.execEncRead k s

end Sys2Proof.Machine
end

