-- ==== Sys2Proof/Machine/Engine.lean ====
section
/-! DEFINITION. The autonomous steps: the receive engine's EngineByte (`41_receiver.md` R101 to R104)
and the time agent's Tick (R105). -/

namespace Sys2Proof.Machine

/-- `STATE <- DONE; RES <- res`: the attempt is complete. -/
def completeWith (res : RecvResult) (s : State) : State :=
  { s with rxstat := rxstatWrite s.rxstat .done res }

/-- Append (R102): store one received byte. Log 8. -/
def appendByte (b : Byte) (s : State) : State :=
  { s with rxbuf := writeByte s.rxbuf s.rxcnt.toNat b, rxcnt := s.rxcnt + 1#7 }

/-- Overflow (R103): flush the channel, discard the attempt's bytes, end it. -/
def overflow (s : State) : State :=
  completeWith .overflow { chanFlush s with rxbuf := clearedBuffer, rxcnt := 0#7 }

/-- TerminatorStop (R104). -/
def terminatorStop (s : State) : State :=
  completeWith (if frameOK s then .frame else .badframe) s

/-- The part of EngineByte after `b <- ChanPop()`: the overflow check comes first (R101, R216). -/
def acceptByte (b : Byte) (s : State) : State :=
  if Config.rxMax ≤ s.rxcnt.toNat then overflow s
  else if b = Config.terminator then terminatorStop (appendByte b s)
  else appendByte b s

/-- The engine's turn: EngineByte where it is enabled, which is exactly while an attempt is RECEIVING
and the channel holds a byte (R101). Where it is not enabled the engine does not move. Log 2. -/
def engineStep (s : State) : State :=
  if s.receiving then
    match chanPop s with
    | none => s
    | some (b, s') => acceptByte b s'
  else s

/-- Tick (R105). Log 8. -/
def tick (s : State) : State :=
  if s.receiving then
    let s' := s.withElapsed (s.elapsed + 1#32)
    if s'.elapsed = s'.timeout then completeWith (if frameOK s' then .frame else .timeout) s' else s'
  else s

end Sys2Proof.Machine
end

