-- ==== Sys2Proof/Machine/Turns.lean ====
section
/-! DEFINITION. One turn of each agent (`00_scope.md` R1): the host's commands, its await loop and its
transmissions, the engine, the channel, time, and reset. -/

namespace Sys2Proof.Machine

/-- The status a rejected byte string completes with (R69, R70, R212). -/
def decodeStatus : DecodeError → Status
  | .emptyCommand => .format
  | .shortBuild => .format
  | .illegalOpcode => .illegal
  | .wrongLength => .format

/-- The block performs one host command, given whole as its bytes (R66): it decodes them, performs the
command, and answers with exactly one response (R67). -/
def hostCommand (bytes : List Byte) (s : State) : Result :=
  match decode bytes with
  | .ok i => exec i s
  | .error e => raiseStatus (decodeStatus e) s

/-- The host's turn: the next line of its script. An `awaitDone` line stays first until RX_STATUS
reports DONE (R9, R81); a host with no line left issues nothing. Log 2, log 4, log 12, log 14. -/
def hostTurn (s : State) : Result :=
  match s.script with
  | [] => .next s
  | .command bytes :: rest => hostCommand bytes (s.withScript rest)
  | .transmit bytes :: rest => .next { s.withScript rest with sent := s.sent ++ bytes }
  | .awaitDone :: rest =>
    hostCommand (encode .rxStatus) (if s.done then s.withScript rest else s)

/-- Reset (R240): every register of the block takes its reset value. The channel is not touched
(R241), nor is anything else that is not the block's. Log 13. -/
def resetBlock (s : State) : State :=
  { State.reset with
    channel := s.channel
    sent := s.sent
    responses := s.responses
    script := s.script
    turns := s.turns }

/-- The step of the agent whose turn it is. -/
def takeTurn (turn : Turn) (s : State) : Result :=
  match turn with
  | .host => hostTurn s
  | .engine => .next (engineStep s)
  | .channel b => .next (chanAppend b s)
  | .time => .next (tick s)
  | .reset => .next (resetBlock s)

/-- The state with the host command of a table word as the host's next line and the host next to
move. Log 4, log 17. -/
def placeCommand (s : State) (nbits w : Nat) : State :=
  { s with turns := .host :: s.turns, script := .command (tableBytes nbits w) :: s.script }

end Sys2Proof.Machine
end

