-- ==== Sys2Proof/Machine/Step.lean ====
section
/-! DEFINITION. One step: the next agent in the list of turns moves (`20_memory.md` R51). -/

namespace Sys2Proof.Machine

/-- One step of the machine. With no turn left no agent moves: the block waits. Log 1, log 2. -/
def step (s : State) : Host.Outcome State Fault Refusal :=
  match s.turns with
  | [] => .next s
  | turn :: rest => takeTurn turn (s.withTurns rest)

/-- The state in which the very next step is the host command of a table word. Log 4, log 17. -/
def State.withFetchWord (s : State) (nbits w : Nat) : State := placeCommand s nbits w

end Sys2Proof.Machine
end

