-- ==== Sys2Proof/Machine/Assembler.lean ====
section
/-! DEFINITION. The host's assembler: one line of text to host script lines (`30_encoding.md` R80), and
the pseudo-instructions, which the block never sees (R81). Log 15 says what the spec leaves open in
the notation. -/

namespace Sys2Proof.Machine

/-! ## Tokens -/

/-- The parts of a line. -/
inductive Token
  | word (chars : List Char)
  | comma
  | openList
  | closeList
  deriving DecidableEq, Repr

/-- The word collected so far, in reverse, before the tokens after it. -/
def closeWord (collected : List Char) (rest : List Token) : List Token :=
  if collected.isEmpty then rest else .word collected.reverse :: rest

/-- The tokens of a line; `;` starts a comment. -/
def tokens : List Char → List Char → List Token
  | [], collected => closeWord collected []
  | c :: cs, collected =>
    if c = ';' then closeWord collected []
    else if c = ',' then closeWord collected (.comma :: tokens cs [])
    else if c = '[' then closeWord collected (.openList :: tokens cs [])
    else if c = ']' then closeWord collected (.closeList :: tokens cs [])
    else if c.isWhitespace then closeWord collected (tokens cs [])
    else tokens cs (c :: collected)

/-! ## Numbers: decimal, or hex after `0x` -/

/-- The value of one digit in base 16 or 10; none where the character is no digit of the base. -/
def digitValue (base : Nat) (c : Char) : Option Nat :=
  let v :=
    if '0'.val ≤ c.val ∧ c.val ≤ '9'.val then some (c.val.toNat - '0'.val.toNat)
    else if 'a'.val ≤ c.val ∧ c.val ≤ 'f'.val then some (c.val.toNat - 'a'.val.toNat + 10)
    else if 'A'.val ≤ c.val ∧ c.val ≤ 'F'.val then some (c.val.toNat - 'A'.val.toNat + 10)
    else none
  v.filter (· < base)

/-- The number a digit string stands for, after the digits already read. -/
def digits (base : Nat) (read : Nat) : List Char → Option Nat
  | [] => some read
  | c :: cs =>
    match digitValue base c with
    | none => none
    | some d => digits base (read * base + d) cs

/-- A number in decimal or as `0x`-prefixed hex. -/
def number : List Char → Option Nat
  | [] => none
  | '0' :: 'x' :: cs => if cs.isEmpty then none else digits 16 0 cs
  | c :: cs => digits 10 0 (c :: cs)

/-! ## Operands -/

/-- An operand as it is written: a number or a list of numbers, of any size. -/
inductive Operand
  | number (v : Nat)
  | list (vs : List Nat)
  deriving DecidableEq, Repr

/-- The numbers of a list, up to its closing bracket, which ends the line. -/
def listOperand : List Token → Option (List Nat)
  | [.closeList] => some []
  | .word w :: rest =>
    match number w, listOperand rest with
    | some v, some vs => some (v :: vs)
    | _, _ => none
  | _ => none

/-- The operands of a line: none, one number, or a number and a list, separated by a comma. -/
def operands : List Token → Option (List Operand)
  | [] => some []
  | [.word w] => (number w).map fun v => [.number v]
  | .word w :: .comma :: .openList :: rest =>
    match number w, listOperand rest with
    | some v, some vs => some [.number v, .list vs]
    | _, _ => none
  | _ => none

/-- Why the assembler refuses a line. -/
inductive AsmError
  /-- The first word is no mnemonic and no pseudo-instruction. -/
  | unknownMnemonic
  /-- The operands are not of the form R80 gives the mnemonic. -/
  | operandForm
  /-- An operand does not fit its field. -/
  | operandTooLarge
  deriving DecidableEq, Repr

/-- A mnemonic alone. -/
def noOperands (i : Instr) : List Operand → Except AsmError Instr
  | [] => .ok i
  | _ :: _ => .error .operandForm

/-- A mnemonic with an 8-bit index: `i >= 256` is refused. -/
def indexOperand (f : Byte → Instr) : List Operand → Except AsmError Instr
  | [.number i] => if i < 256 then .ok (f (BitVec.ofNat 8 i)) else .error .operandTooLarge
  | _ => .error .operandForm

/-- RX_START's timeout: `t >= 2^32` is refused. -/
def timeoutNumber : List Operand → Except AsmError (BitVec 32)
  | [.number t] => if t < 2 ^ 32 then .ok (BitVec.ofNat 32 t) else .error .operandTooLarge
  | _ => .error .operandForm

/-- ENC_BUILD's operands: `c >= 256`, an element `>= 256` and a list longer than 65535 are refused. -/
def buildFrom (c : Nat) (ps : List Nat) : Except AsmError Instr :=
  if c < 256 ∧ (ps.all (· < 256)) ∧ ps.length ≤ 65535 then
    .ok (.encBuild (BitVec.ofNat 8 c) (ps.map (BitVec.ofNat 8)))
  else .error .operandTooLarge

/-- ENC_BUILD: `ENC_BUILD c, [p0 ...]`, and the pseudo-instruction `ENC_BUILD c` for `c, []` (R81). -/
def buildFromOperands : List Operand → Except AsmError Instr
  | [.number c] => buildFrom c []
  | [.number c, .list ps] => buildFrom c ps
  | _ => .error .operandForm

/-- The command a mnemonic and its operands stand for (R80). -/
def assembleOperands (o : Opcode) (ops : List Operand) : Except AsmError Instr :=
  match o with
  | .rxStart => (timeoutNumber ops).map .rxStart
  | .rxStatus => noOperands .rxStatus ops
  | .rxCount => noOperands .rxCount ops
  | .rxRead => indexOperand .rxRead ops
  | .rxElapsed => noOperands .rxElapsed ops
  | .validate => noOperands .validate ops
  | .frHeader => noOperands .frHeader ops
  | .frType => noOperands .frType ops
  | .frCommand => noOperands .frCommand ops
  | .frPlen => noOperands .frPlen ops
  | .frParam => indexOperand .frParam ops
  | .frChecksum => noOperands .frChecksum ops
  | .frTerminator => noOperands .frTerminator ops
  | .frChkcalc => noOperands .frChkcalc ops
  | .encBuild => buildFromOperands ops
  | .encGetModuleInfo => noOperands .encGetModuleInfo ops
  | .encSinglePoll => noOperands .encSinglePoll ops
  | .encStartMultiPoll => noOperands .encStartMultiPoll ops
  | .encStopMultiPoll => noOperands .encStopMultiPoll ops
  | .encLen => noOperands .encLen ops
  | .encRead => indexOperand .encRead ops

/-! ## Lines -/

/-- The mnemonic of each row of the opcode map (R68). -/
def mnemonic : Opcode → String
  | .rxStart => "RX_START"
  | .rxStatus => "RX_STATUS"
  | .rxCount => "RX_COUNT"
  | .rxRead => "RX_READ"
  | .rxElapsed => "RX_ELAPSED"
  | .validate => "VALIDATE"
  | .frHeader => "FR_HEADER"
  | .frType => "FR_TYPE"
  | .frCommand => "FR_COMMAND"
  | .frPlen => "FR_PLEN"
  | .frParam => "FR_PARAM"
  | .frChecksum => "FR_CHECKSUM"
  | .frTerminator => "FR_TERMINATOR"
  | .frChkcalc => "FR_CHKCALC"
  | .encBuild => "ENC_BUILD"
  | .encGetModuleInfo => "ENC_GET_MODULE_INFO"
  | .encSinglePoll => "ENC_SINGLE_POLL"
  | .encStartMultiPoll => "ENC_START_MULTI_POLL"
  | .encStopMultiPoll => "ENC_STOP_MULTI_POLL"
  | .encLen => "ENC_LEN"
  | .encRead => "ENC_READ"

/-- `RECEIVE t`: RX_START t, then await RXSTAT.STATE = DONE (R81). -/
def receiveLines (t : BitVec 32) : List HostLine := [.command (encode (.rxStart t)), .awaitDone]

/-- `RECEIVE_VALID t`: RECEIVE t, then VALIDATE (R81). -/
def receiveValidLines (t : BitVec 32) : List HostLine :=
  receiveLines t ++ [.command (encode .validate)]

/-- The host lines a mnemonic or pseudo-instruction and its operands stand for. -/
def assembleCommand (name : List Char) (ops : List Operand) : Except AsmError (List HostLine) :=
  if name = "RECEIVE".toList then (timeoutNumber ops).map receiveLines
  else if name = "RECEIVE_VALID".toList then (timeoutNumber ops).map receiveValidLines
  else
    match Opcode.all.find? fun o => (mnemonic o).toList == name with
    | none => .error .unknownMnemonic
    | some o => (assembleOperands o ops).map fun i => [.command (encode i)]

/-- One line of assembler text (R80); a line with no word is no command. -/
def assembleLine (line : String) : Except AsmError (List HostLine) :=
  match tokens line.toList [] with
  | [] => .ok []
  | .word name :: rest =>
    match operands rest with
    | none => .error .operandForm
    | some ops => assembleCommand name ops
  | _ :: _ => .error .operandForm

end Sys2Proof.Machine
end

