-- ==== Sys2Proof/Machine/Script.lean ====
section
/-! DEFINITION. The host-script notation of `00_scope.md` R9: host commands, the await loop and the
environment's actions, as turns and host lines of the state. -/

namespace Sys2Proof.Machine

/-- One line of a host program. -/
inductive ScriptLine
  /-- A host command, an `await`, or a transmission. -/
  | host (line : HostLine)
  /-- `env chan += [b0 b1 ...]`. -/
  | append (bytes : List Byte)
  /-- `env tick k`. -/
  | ticks (k : Nat)
  deriving DecidableEq, Repr

/-- The turns that perform a line. An await line gets one host turn, so one poll: R9 gives no number of
them. Log 20. -/
def lineTurns : ScriptLine → List Turn
  | .host _ => [.host]
  | .append bytes => bytes.map .channel
  | .ticks k => List.replicate k .time

/-- The line of the host's script that a line of the program is. -/
def hostLines : ScriptLine → List HostLine
  | .host line => [line]
  | .append _ => []
  | .ticks _ => []

/-- The state that goes on with a program, the engine given `k` turns after each line, which is one of
the interleavings R1 admits. Where an await does not hold at its turn, the host turns of later lines poll
again, and the environment's lines do not wait for it. Log 1, log 20. -/
def loadScript (k : Nat) (lines : List ScriptLine) (s : State) : State :=
  { s with
    script := s.script ++ lines.flatMap hostLines
    turns := s.turns ++ lines.flatMap fun l => lineTurns l ++ List.replicate k .engine }

end Sys2Proof.Machine
end

