-- ==== Sys2Proof/Safety.lean ====
section
/-! DEFINITION. What holds in every reachable state (`10_state.md` R20 and the register rules), and the
terms the statements are written in. -/

namespace Sys2Proof.Machine

/-! ## Invariants -/

/-- The invariants of R20, with the values R13, R16 and R109 say can occur. -/
structure State.Inv (s : State) : Prop where
  /-- R20 item 1. -/
  rxcnt_le : s.rxcnt.toNat ≤ Config.rxMax
  rxbuf_zero : ∀ i, s.rxcnt.toNat ≤ i → i < Config.rxCap → byteAt s.rxbuf i = 0x00#8
  /-- R20 item 2. -/
  elapsed_le : s.elapsed.toNat ≤ s.timeout.toNat
  elapsed_lt : s.receiving = true → s.elapsed.toNat < s.timeout.toNat
  /-- R20 item 3. -/
  no_terminator : s.receiving = true →
    ∀ i, i < s.rxcnt.toNat → byteAt s.rxbuf i ≠ Config.terminator
  /-- R20 item 4. -/
  frame : rxstatRes s.rxstat = RecvResult.frame.code →
    2 ≤ s.rxcnt.toNat ∧ byteAt s.rxbuf 0 = Config.header ∧
      byteAt s.rxbuf (s.rxcnt.toNat - 1) = Config.terminator
  badframe : rxstatRes s.rxstat = RecvResult.badframe.code →
    1 ≤ s.rxcnt.toNat ∧ byteAt s.rxbuf (s.rxcnt.toNat - 1) = Config.terminator ∧
      (s.rxcnt.toNat = 1 ∨ byteAt s.rxbuf 0 ≠ Config.header)
  /-- R20 item 4, and R112: after a timeout ELAPSED equals TIMEOUT. -/
  timed_out : rxstatRes s.rxstat = RecvResult.timeout.code →
    s.elapsed = s.timeout ∧ ∀ i, i < s.rxcnt.toNat → byteAt s.rxbuf i ≠ Config.terminator
  overflowed : rxstatRes s.rxstat = RecvResult.overflow.code → s.rxcnt = 0#7
  /-- R20 item 5. -/
  enclen_range : s.enclen = 0#7 ∨ (7 ≤ s.enclen.toNat ∧ s.enclen.toNat ≤ 63)
  encbuf_zero : ∀ i, s.enclen.toNat ≤ i → i < Config.encCap → byteAt s.encbuf i = 0x00#8
  /-- R13, R109: the values of RXSTAT that can occur. -/
  rxstat_legal : s.rxstat ∈ [0x00#8, 0x01#8, 0x12#8, 0x22#8, 0x32#8, 0x42#8]
  /-- R16, R140: the values of VSTAT that can occur. -/
  vstat_legal : s.vstat ∈ [0x00#8, 0xC0#8, 0x41#8, 0x42#8, 0x43#8, 0x44#8, 0x45#8]

/-- R143: while an attempt runs the validation result is cleared, and whenever CHECKED = 1 it is what
VALIDATE finds in the current RXBUF. -/
structure State.VerdictCurrent (s : State) : Prop where
  cleared : s.receiving = true → s.vstat = 0x00#8
  current : vstatChecked s.vstat = true →
    vstatReason s.vstat = (judge s).1.code ∧ vstatValid s.vstat = ((judge s).1 == .ok) ∧
      s.chkcalc = (judge s).2
  unchecked : vstatChecked s.vstat = false →
    vstatValid s.vstat = false ∧ vstatReason s.vstat = 0#3 ∧ s.chkcalc = 0x00#8

/-! ## Classes of commands -/

/-- The commands that read the block and write nothing (R50, R109 to R112, R150 to R157, R185, R186). -/
def readOnly : Instr → Bool
  | .rxStatus | .rxCount | .rxRead _ | .rxElapsed => true
  | .frHeader | .frType | .frCommand | .frPlen | .frParam _ => true
  | .frChecksum | .frTerminator | .frChkcalc => true
  | .encLen | .encRead _ => true
  | .rxStart _ | .validate => false
  | .encBuild _ _ | .encGetModuleInfo | .encSinglePoll | .encStartMultiPoll => false
  | .encStopMultiPoll => false

/-- The five encode commands (R18). -/
def encodeCommand : Instr → Bool
  | .encBuild _ _ | .encGetModuleInfo | .encSinglePoll | .encStartMultiPoll => true
  | .encStopMultiPoll => true
  | .encLen | .encRead _ => false
  | .rxStart _ | .rxStatus | .rxCount | .rxRead _ | .rxElapsed => false
  | .validate | .frHeader | .frType | .frCommand | .frPlen | .frParam _ => false
  | .frChecksum | .frTerminator | .frChkcalc => false

/-- The encoder's commands: the encode commands, ENC_LEN and ENC_READ (R187). -/
def encoderCommand : Instr → Bool
  | .encLen | .encRead _ => true
  | .encBuild _ _ | .encGetModuleInfo | .encSinglePoll | .encStartMultiPoll => true
  | .encStopMultiPoll => true
  | .rxStart _ | .rxStatus | .rxCount | .rxRead _ | .rxElapsed => false
  | .validate | .frHeader | .frType | .frCommand | .frPlen | .frParam _ => false
  | .frChecksum | .frTerminator | .frChkcalc => false

/-! ## The status of a command, from the tables of R68, R210, R212 and R213 alone -/

/-- The opcode values R68 lists. -/
def assignedOpcode (op : Byte) : Bool :=
  (0x10#8 ≤ op && op ≤ 0x14#8) || (0x20#8 ≤ op && op ≤ 0x28#8) || (0x30#8 ≤ op && op ≤ 0x36#8)

/-- The opcodes of the BUSY set (R213). -/
def busyOpcode (op : Byte) : Bool :=
  op == 0x10#8 || op == 0x13#8 || (0x20#8 ≤ op && op ≤ 0x28#8)

/-- The count `n` that an ENC_BUILD of these operand bytes declares (R68). -/
def declaredCount (args : List Byte) : Nat := (args.getD 1 0#8).toNat * 256 + (args.getD 2 0#8).toNat

/-- The number of operand bytes of each assigned opcode (R68, R70). -/
def operandLength (op : Byte) (args : List Byte) : Nat :=
  if op = 0x10#8 then 4
  else if op = 0x13#8 ∨ op = 0x25#8 ∨ op = 0x36#8 then 1
  else if op = 0x30#8 then 3 + declaredCount args
  else 0

/-- The status byte a host command completes with, the first that applies in the order of R212. -/
def expectedStatus (bytes : List Byte) (receiving : Bool) : Byte :=
  match bytes with
  | [] => 0x04#8
  | op :: args =>
    if op = 0x30#8 ∧ args.length < 3 then 0x04#8
    else if assignedOpcode op = false then 0x03#8
    else if args.length ≠ operandLength op args then 0x04#8
    else if busyOpcode op = true ∧ receiving = true then 0x01#8
    else if op = 0x30#8 ∧ 56 < declaredCount args then 0x02#8
    else 0x00#8

/-! ## Parts of the state -/

/-- The receiver's and the validator's registers are the same. -/
def SameReceiver (s t : State) : Prop :=
  t.rxbuf = s.rxbuf ∧ t.rxcnt = s.rxcnt ∧ t.rxstat = s.rxstat ∧ t.timeout = s.timeout ∧
    t.elapsed = s.elapsed ∧ t.vstat = s.vstat ∧ t.chkcalc = s.chkcalc

/-- The encoder's registers are the same. -/
def SameEncoder (s t : State) : Prop := t.encbuf = s.encbuf ∧ t.enclen = s.enclen

/-- The channel's queue, the transmitted bytes, the host's script and the turns are the same. -/
def SameEnvironment (s t : State) : Prop :=
  t.channel = s.channel ∧ t.sent = s.sent ∧ t.script = s.script ∧ t.turns = s.turns

/-- The state with the encoder's registers of `e`. -/
def State.withEncoder (s e : State) : State := { s with encbuf := e.encbuf, enclen := e.enclen }

/-- The state with the receiver's and the validator's registers and the channel of `r`. -/
def State.withReceiver (s r : State) : State :=
  { s with
    rxbuf := r.rxbuf, rxcnt := r.rxcnt, rxstat := r.rxstat, timeout := r.timeout
    elapsed := r.elapsed, vstat := r.vstat, chkcalc := r.chkcalc, channel := r.channel }

/-- The state whose receive buffer holds exactly `bytes`, as an attempt that stored them left it. -/
def State.withStored (s : State) (bytes : List Byte) : State :=
  { s with rxbuf := bufferOf bytes, rxcnt := BitVec.ofNat 7 bytes.length }

/-- The state with bit `k` of the stored byte `i` flipped (R161). -/
def State.withFlippedBit (s : State) (i k : Nat) : State :=
  { s with rxbuf := writeByte s.rxbuf i (byteAt s.rxbuf i ^^^ BitVec.twoPow 8 k) }

/-- The bytes of the frame in ENCBUF, in the order the host reads them out (R186). -/
def encodedBytes (s : State) : List Byte := (List.range s.enclen.toNat).map (byteAt s.encbuf)

/-- The bytes the current or last attempt stored, in the order they came (R11, R12). -/
def storedBytes (s : State) : List Byte := (List.range s.rxcnt.toNat).map (byteAt s.rxbuf)

/-- The byte a turn adds to the channel's queue (R48). -/
def arrival : Turn → List Byte
  | .channel b => [b]
  | .host | .engine | .time | .reset => []

/-- The bytes that turns add to the channel's queue, oldest first. -/
def arrivals (turns : List Turn) : List Byte := turns.flatMap arrival

/-- The parameter length of the candidate frame as a number (R61, R141). -/
def storedPlen (s : State) : Nat :=
  if 5 ≤ s.rxcnt.toNat then (byteAt s.rxbuf 3).toNat * 256 + (byteAt s.rxbuf 4).toNat else 0

/-- The checksum of the candidate frame: the sum of offsets 1 to `4 + plen`, modulo 256 (R62). -/
def storedChecksum (s : State) : Byte :=
  BitVec.ofNat 8 (∑ k ∈ Finset.range (4 + storedPlen s), (byteAt s.rxbuf (1 + k)).toNat)

/-! ## Forms of the statements -/

/-- The one-byte command `op` decodes to `i`; with any operand byte it answers FORMAT (R68, R70). -/
def OneByteCommand (op : Byte) (i : Instr) : Prop :=
  decode [op] = .ok i ∧
    ∀ args s, args.length ≠ 0 → hostCommand (op :: args) s = .next (s.withResponse [0x04#8])

/-- The two-byte command `op k` decodes to `f k`; at any other length it answers FORMAT (R68, R70). -/
def TwoByteCommand (op : Byte) (f : Byte → Instr) : Prop :=
  (∀ k, decode [op, k] = .ok (f k)) ∧
    ∀ args s, args.length ≠ 1 → hostCommand (op :: args) s = .next (s.withResponse [0x04#8])

/-- The command answers BUSY, with no other effect, while an attempt is in progress (R213, R211). -/
def BusyWhileReceiving (i : Instr) : Prop :=
  ∀ s : State, s.receiving = true → exec i s = .next (s.withResponse [0x01#8])

/-- VALIDATE completes with the given REASON and CHKCALC: VALID is set exactly for reason 0, CHECKED is
set, the response is OK and VSTAT, and no other register changes. -/
def ValidateGives (s : State) (reason : BitVec 3) (chkcalc : Byte) : Prop :=
  ∃ v : Byte,
    exec .validate s = .next ({ s with vstat := v, chkcalc := chkcalc }.withResponse [0x00#8, v]) ∧
    v.getLsbD 7 = (reason == 0#3) ∧ v.getLsbD 6 = true ∧ v.extractLsb' 0 3 = reason

/-- The host's next step performs the command `i`. -/
def State.performs (s : State) (i : Instr) : Prop :=
  ∃ rest lines bytes, s.turns = .host :: rest ∧ s.script = .command bytes :: lines ∧
    decode bytes = .ok i

/-- The receive engine is next and is enabled (R101). -/
def State.engineMoves (s : State) : Prop :=
  (∃ rest, s.turns = .engine :: rest) ∧ s.receiving = true ∧ s.channel ≠ []

/-- The next step is a reset. -/
def State.resets (s : State) : Prop := ∃ rest, s.turns = .reset :: rest

/-- The next step is a tick. -/
def State.ticks (s : State) : Prop := ∃ rest, s.turns = .time :: rest

/-- `k` steps lead from `s` to `t`, none of them a fault or a refusal. -/
def runsTo : Nat → State → State → Prop
  | 0, s, t => t = s
  | k + 1, s, t => ∃ u, step s = .next u ∧ runsTo k u t

/-! ## The open parameters -/

/-- Whether a queue fits a channel of the given depth; none is an unbounded one (R7). -/
def fitsDepth (cap : Option Nat) (q : List Byte) : Bool :=
  match cap with
  | none => true
  | some n => decide (q.length ≤ n)

/-- The real time that the current or last attempt's ticks stand for (R6). -/
def elapsedRealTime (s : State) : Nat := s.elapsed.toNat * Config.tickUnit

end Sys2Proof.Machine
end

