-- ==== Sys2Proof/Certificates/Slice0/Obligations.lean ====
section
/-! DEFINITION. The statements for the provers. Each docstring names the rules of spec/ it says. In the
statements `s.withResponse r` is `s` with the response `r` received, and nothing else changed. -/

open Sys2Proof Sys2Proof.Machine

/-! ## Encodings (`30_encoding.md`) -/

/-- Words written out from the opcode map of R68 decode to the commands they stand for, at least one of
every family, with operands at their extreme values. -/
def Obligations.OpcodeMapWordsDecode : Prop :=
  decode [0x10#8, 0x00#8, 0x00#8, 0x00#8, 0x64#8] = .ok (.rxStart 100#32) ∧
  decode [0x10#8, 0x12#8, 0x34#8, 0x56#8, 0x78#8] = .ok (.rxStart 0x12345678#32) ∧
  decode [0x11#8] = .ok .rxStatus ∧
  decode [0x13#8, 0x16#8] = .ok (.rxRead 22#8) ∧
  decode [0x14#8] = .ok .rxElapsed ∧
  decode [0x20#8] = .ok .validate ∧
  decode [0x25#8, 0xFF#8] = .ok (.frParam 255#8) ∧
  decode [0x28#8] = .ok .frChkcalc ∧
  decode [0x30#8, 0x22#8, 0x00#8, 0x00#8] = .ok (.encBuild 0x22#8 []) ∧
  decode [0x30#8, 0xFF#8, 0x00#8, 0x02#8, 0xFF#8, 0xFE#8] = .ok (.encBuild 0xFF#8 [0xFF#8, 0xFE#8]) ∧
  decode [0x33#8] = .ok .encStartMultiPoll ∧
  decode [0x36#8, 0x07#8] = .ok (.encRead 7#8)

/-- Decoding the bytes of a well-formed command gives the command back, every operand at every value its
encoding admits (R66, R68). -/
def Obligations.DecodeOfEncodeIsTheCommand : Prop :=
  ∀ i : Instr, i.wellFormed = true → decode (encode i) = .ok i

/-- Each command has one spelling: a byte string that decodes to a command is the encoding of that
command, and the command is well formed (R68, R70). -/
def Obligations.EachCommandHasOneSpelling : Prop :=
  ∀ (bytes : List Byte) (i : Instr), decode bytes = .ok i → bytes = encode i ∧ i.wellFormed = true

/-- R69: a command whose opcode is one of the unlisted values completes with ILLEGAL and has no effect,
and no operand value makes a listed opcode illegal: an ENC_BUILD of more than 56 parameters is refused by
value, with RANGE. The one form R212 puts before it, the empty command, has no opcode. -/
def Obligations.UnlistedOpcodesAnswerIllegal : Prop :=
  (∀ (op : Byte) (args : List Byte),
    (op.toNat ≤ 0x0F ∨ (0x15 ≤ op.toNat ∧ op.toNat ≤ 0x1F) ∨ (0x29 ≤ op.toNat ∧ op.toNat ≤ 0x2F) ∨
        0x37 ≤ op.toNat →
      ∀ s, hostCommand (op :: args) s = .next (s.withResponse [0x03#8])) ∧
    ((0x10 ≤ op.toNat ∧ op.toNat ≤ 0x14) ∨ (0x20 ≤ op.toNat ∧ op.toNat ≤ 0x28) ∨
        (0x30 ≤ op.toNat ∧ op.toNat ≤ 0x36) →
      decode (op :: args) ≠ .error .illegalOpcode)) ∧
  (∀ (c hi lo : Byte) (params : List Byte) (s : State),
    params.length = hi.toNat * 256 + lo.toNat → 56 < params.length →
    hostCommand (0x30#8 :: c :: hi :: lo :: params) s = .next (s.withResponse [0x02#8]))

/-- R70: a command of a listed opcode whose length differs from the opcode's length completes with FORMAT
and has no effect; so does the empty command, and an ENC_BUILD shorter than 4 bytes. At the opcode's
length it is a command. -/
def Obligations.WrongLengthsAnswerFormat : Prop :=
  (∀ s, hostCommand [] s = .next (s.withResponse [0x04#8])) ∧
  (∀ args s, args.length < 3 →
    hostCommand (0x30#8 :: args) s = .next (s.withResponse [0x04#8])) ∧
  (∀ (op : Byte) (args : List Byte), assignedOpcode op = true →
    (args.length ≠ operandLength op args →
      ∀ s, hostCommand (op :: args) s = .next (s.withResponse [0x04#8])) ∧
    (args.length = operandLength op args → ∃ i, decode (op :: args) = .ok i))

/-- R211, R212, R213: every byte string completes with exactly the status that comes first in the order
of R212, BUSY being raised exactly by the BUSY set during an attempt; and a command that completes with a
status other than OK changes nothing but the response received, which is that one byte. -/
def Obligations.StatusFollowsThePriorityOrder : Prop :=
  ∀ (bytes : List Byte) (s : State),
    (expectedStatus bytes s.receiving ≠ 0x00#8 →
      hostCommand bytes s = .next (s.withResponse [expectedStatus bytes s.receiving])) ∧
    (expectedStatus bytes s.receiving = 0x00#8 →
      ∃ t result, hostCommand bytes s = .next t ∧ t.responses = (0x00#8 :: result) :: s.responses)

/-- A step performs the decoded command: when the host is next and its next line is a byte string that
decodes to `i`, the step is `exec i` with that turn and that line taken. A byte string that the decoder
rejects answers the status of its rejection. A word of the opcode table placed by `withFetchWord` is what
the very next step performs. The turns and the script are the model's own (log 1, log 4). -/
def Obligations.StepPerformsTheDecodedCommand : Prop :=
  (∀ (s : State) (rest : List Turn) (lines : List HostLine) (bytes : List Byte) (i : Instr),
    s.turns = .host :: rest → s.script = .command bytes :: lines → decode bytes = .ok i →
    step s = exec i { s with turns := rest, script := lines }) ∧
  (∀ (s : State) (rest : List Turn) (lines : List HostLine) (bytes : List Byte) (e : DecodeError),
    s.turns = .host :: rest → s.script = .command bytes :: lines → decode bytes = .error e →
    step s = .next ({ s with turns := rest, script := lines }.withResponse
      [if e = DecodeError.illegalOpcode then 0x03#8 else 0x04#8])) ∧
  (∀ (s : State) (nbits w : Nat) (i : Instr), decodeTableWord nbits w = some i →
    step (s.withFetchWord nbits w) = exec i s)

/-! ## The receiver's commands (`41_receiver.md`) -/

/-- R100: RX_START starts an attempt whose window is `t` ticks, with the previous attempt's bytes and
validation result discarded; with `t = 0` the attempt is complete at once, with TIMEOUT. It writes neither
the encoder's registers nor the channel, and answers BUSY while an attempt is in progress. -/
def Obligations.RxStartStartsAnAttempt : Prop :=
  (∀ b3 b2 b1 b0 : Byte,
    decode [0x10#8, b3, b2, b1, b0] = .ok (.rxStart (b3 ++ b2 ++ b1 ++ b0 : BitVec 32))) ∧
  (∀ args s, args.length ≠ 4 →
    hostCommand (0x10#8 :: args) s = .next (s.withResponse [0x04#8])) ∧
  (∀ t, BusyWhileReceiving (.rxStart t)) ∧
  (∀ (t : BitVec 32) (s : State), s.receiving = false →
    ∃ u, exec (.rxStart t) s = .next u ∧
      u.timeout = t ∧ u.elapsed = 0#32 ∧ (∀ k, k < 64 → byteAt u.rxbuf k = 0x00#8) ∧
      u.rxcnt = 0#7 ∧ u.vstat = 0x00#8 ∧ u.chkcalc = 0x00#8 ∧
      rxstatState u.rxstat = (if t = 0#32 then 2#2 else 1#2) ∧
      rxstatRes u.rxstat = (if t = 0#32 then 2#3 else 0#3) ∧
      u.responses = [0x00#8] :: s.responses ∧ SameEncoder s u ∧ SameEnvironment s u)

/-- R109, R110, R112: RX_STATUS, RX_COUNT and RX_ELAPSED answer RXSTAT, RXCNT and ELAPSED (most
significant byte first) in every state and write nothing; the values of RXSTAT that can occur; RX_COUNT
answers 0 after an RX_START and after an overflow; ELAPSED equals TIMEOUT after a timeout and keeps the
count at completion after a terminator stop or an overflow. -/
def Obligations.StatusCountAndElapsedRead : Prop :=
  OneByteCommand 0x11#8 .rxStatus ∧ OneByteCommand 0x12#8 .rxCount ∧
  OneByteCommand 0x14#8 .rxElapsed ∧
  (∀ s, exec .rxStatus s = .next (s.withResponse [0x00#8, s.rxstat])) ∧
  (∀ s, exec .rxCount s = .next (s.withResponse [0x00#8, BitVec.ofNat 8 s.rxcnt.toNat])) ∧
  (∀ s, exec .rxElapsed s = .next (s.withResponse
    [0x00#8, BitVec.ofNat 8 (s.elapsed.toNat / 2 ^ 24), BitVec.ofNat 8 (s.elapsed.toNat / 2 ^ 16),
      BitVec.ofNat 8 (s.elapsed.toNat / 2 ^ 8), BitVec.ofNat 8 s.elapsed.toNat])) ∧
  (∀ s : State, s.Inv → s.rxstat ∈ [0x00#8, 0x01#8, 0x12#8, 0x22#8, 0x32#8, 0x42#8]) ∧
  (∀ s : State, s.Inv → rxstatRes s.rxstat = 3#3 →
    exec .rxCount s = .next (s.withResponse [0x00#8, 0x00#8])) ∧
  (∀ (t : BitVec 32) (s : State), s.receiving = false →
    ∃ u, exec (.rxStart t) s = .next u ∧
      exec .rxCount u = .next (u.withResponse [0x00#8, 0x00#8])) ∧
  (∀ s : State, s.Inv → rxstatRes s.rxstat = 2#3 → s.elapsed = s.timeout) ∧
  (∀ s : State, (engineStep s).elapsed = s.elapsed ∧ (s.receiving = false → tick s = s))

/-- R111: RX_READ; after an overflow nothing is readable. -/
def Obligations.RxReadReadsTheBuffer : Prop :=
  TwoByteCommand 0x13#8 .rxRead ∧ (∀ i, BusyWhileReceiving (.rxRead i)) ∧
  (∀ (i : Byte) (s : State), s.receiving = false →
    exec (.rxRead i) s = .next (s.withResponse
      [0x00#8, if i.toNat < s.rxcnt.toNat then byteAt s.rxbuf i.toNat else 0x00#8])) ∧
  (∀ (i : Byte) (s : State), s.receiving = false → s.rxcnt.toNat ≤ i.toNat ∨ 64 ≤ i.toNat →
    exec (.rxRead i) s = .next (s.withResponse [0x00#8, 0x00#8])) ∧
  (∀ (i : Byte) (s : State), s.Inv → rxstatRes s.rxstat = 3#3 →
    exec (.rxRead i) s = .next (s.withResponse [0x00#8, 0x00#8]))

/-! ## The receive engine and time (`41_receiver.md`) -/

/-- R102: an engine turn during an attempt that has room takes the oldest channel byte and stores it,
whatever its value; unless it is a terminator the attempt goes on. Nothing else changes. -/
def Obligations.EngineStoresOneByte : Prop :=
  ∀ (s : State) (rest : List Turn) (b : Byte) (q : List Byte),
    s.turns = .engine :: rest → s.receiving = true → s.channel = b :: q → s.rxcnt.toNat < 63 →
    ∃ t, step s = .next t ∧ t.channel = q ∧ t.rxcnt.toNat = s.rxcnt.toNat + 1 ∧
      byteAt t.rxbuf s.rxcnt.toNat = b ∧
      (∀ k, k ≠ s.rxcnt.toNat → byteAt t.rxbuf k = byteAt s.rxbuf k) ∧
      (b ≠ 0xDD#8 → t.rxstat = s.rxstat) ∧
      t.timeout = s.timeout ∧ t.elapsed = s.elapsed ∧ t.vstat = s.vstat ∧ t.chkcalc = s.chkcalc ∧
      SameEncoder s t ∧ t.sent = s.sent ∧ t.responses = s.responses ∧ t.script = s.script ∧
      t.turns = rest

/-- R104: the first terminator stored ends the attempt in the step that stores it: STATE is DONE,
and RES is FRAME exactly when the count is above 1 and the first byte is the header, otherwise BADFRAME.
ELAPSED keeps its value and the bytes after it stay in the channel. -/
def Obligations.TerminatorEndsTheAttempt : Prop :=
  ∀ (s : State) (rest : List Turn) (q : List Byte),
    s.turns = .engine :: rest → s.receiving = true → s.channel = 0xDD#8 :: q → s.rxcnt.toNat < 63 →
    ∃ t, step s = .next t ∧ rxstatState t.rxstat = 2#2 ∧
      rxstatRes t.rxstat =
        (if 1 < t.rxcnt.toNat ∧ byteAt t.rxbuf 0 = 0xAA#8 ∧
            byteAt t.rxbuf (t.rxcnt.toNat - 1) = 0xDD#8 then 1#3 else 4#3) ∧
      rxstatRes t.rxstat =
        (if 1 ≤ s.rxcnt.toNat ∧ byteAt s.rxbuf 0 = 0xAA#8 then 1#3 else 4#3) ∧
      t.rxcnt.toNat = s.rxcnt.toNat + 1 ∧ t.elapsed = s.elapsed ∧ t.channel = q

/-- R103: the 64th byte of an attempt, of any value, ends it with OVERFLOW: the channel is emptied,
the stored bytes are discarded, and nothing else changes. -/
def Obligations.SixtyFourthByteOverflows : Prop :=
  ∀ (s : State) (rest : List Turn) (b : Byte) (q : List Byte),
    s.turns = .engine :: rest → s.receiving = true → s.channel = b :: q → 63 ≤ s.rxcnt.toNat →
    ∃ t, step s = .next t ∧ t.channel = [] ∧ chanAvail t = 0 ∧
      (∀ k, k < 64 → byteAt t.rxbuf k = 0x00#8) ∧
      t.rxcnt = 0#7 ∧ rxstatState t.rxstat = 2#2 ∧ rxstatRes t.rxstat = 3#3 ∧
      t.timeout = s.timeout ∧ t.elapsed = s.elapsed ∧ t.vstat = s.vstat ∧ t.chkcalc = s.chkcalc ∧
      SameEncoder s t ∧ t.sent = s.sent ∧ t.responses = s.responses ∧ t.script = s.script ∧
      t.turns = rest

/-- The engine moves only while an attempt is RECEIVING and the channel holds a byte (R101, R108). That a
turn given to it otherwise is passed over is the model's choice (log 2). -/
def Obligations.EngineWaitsUnlessEnabled : Prop :=
  ∀ (s : State) (rest : List Turn), s.turns = .engine :: rest →
    s.receiving = false ∨ chanAvail s = 0 → step s = .next { s with turns := rest }

/-- R105: a tick advances ELAPSED by one while an attempt is RECEIVING and completes the attempt when
ELAPSED reaches TIMEOUT, with FRAME where FrameOK() holds and TIMEOUT otherwise; in IDLE and DONE it has no
effect. It writes ELAPSED and RXSTAT only. -/
def Obligations.TickAdvancesTheTimer : Prop :=
  ∀ (s : State) (rest : List Turn), s.turns = .time :: rest →
    (s.receiving = false → step s = .next { s with turns := rest }) ∧
    (s.receiving = true → s.elapsed + 1#32 ≠ s.timeout →
      step s = .next { s with turns := rest, elapsed := s.elapsed + 1#32 }) ∧
    (s.receiving = true → s.elapsed + 1#32 = s.timeout →
      ∃ st, step s = .next { s with turns := rest, elapsed := s.timeout, rxstat := st } ∧
        rxstatState st = 2#2 ∧
        rxstatRes st =
          (if 1 < s.rxcnt.toNat ∧ byteAt s.rxbuf 0 = 0xAA#8 ∧
              byteAt s.rxbuf (s.rxcnt.toNat - 1) = 0xDD#8 then 1#3 else 2#3))

/-- In a reachable state the tick that ends the window always gives TIMEOUT, never FRAME (the spec's own
inference in R105): the result rests on the invariants, which StepKeepsTheInvariants states. -/
def Obligations.ExpiryIsATimeout : Prop :=
  ∀ (s : State) (rest : List Turn), s.turns = .time :: rest → s.Inv → s.receiving = true →
    s.elapsed + 1#32 = s.timeout →
    ∃ t, step s = .next t ∧ t.done = true ∧ rxstatRes t.rxstat = 2#3 ∧ t.rxbuf = s.rxbuf ∧
      t.rxcnt = s.rxcnt ∧ t.channel = s.channel

/-- R48: in any state the channel's step appends its byte to the tail of the receive queue, and changes
nothing else. -/
def Obligations.ChannelAppendsToTheTail : Prop :=
  ∀ (s : State) (rest : List Turn) (b : Byte), s.turns = .channel b :: rest →
    step s = .next { s with turns := rest, channel := s.channel ++ [b] }

/-- In a run whose turns are all the engine's, with the bytes queued at its start, an attempt stores from the
oldest unread byte, whatever it is, through the first terminator, and no further (R107, C2; R107 is the
spec's own inference; AttemptsTakeAPrefixOfTheirStream says it of every interleaving): RXBUF holds exactly those bytes, the rest stays in
the channel, and RES is FRAME exactly when a header came first. -/
def Obligations.AttemptTakesThroughTheFirstTerminator : Prop :=
  ∀ (s : State) (pre q : List Byte) (more : List Turn),
    s.receiving = true → s.rxcnt = 0#7 → s.channel = pre ++ 0xDD#8 :: q → 0xDD#8 ∉ pre →
    pre.length < 63 → s.turns = List.replicate (pre.length + 1) .engine ++ more →
    ∃ t, runsTo (pre.length + 1) s t ∧
      t.receiving = false ∧ t.done = true ∧
      rxstatRes t.rxstat = (if pre.head? = some 0xAA#8 then 1#3 else 4#3) ∧
      t.rxcnt.toNat = pre.length + 1 ∧
      (∀ k, k < pre.length + 1 → byteAt t.rxbuf k = (pre ++ [0xDD#8]).getD k 0x00#8) ∧
      t.channel = q ∧ t.elapsed = s.elapsed ∧ t.turns = more

/-- In a run whose turns are all the engine's, sixty-three queued bytes with no terminator and then any byte
overflow the attempt before its window ends, and every byte the channel holds at that moment is lost, complete frames behind the noise included
(R256, R103; R256 is the spec's own inference). -/
def Obligations.OverflowLosesTheWholeQueue : Prop :=
  ∀ (s : State) (pre : List Byte) (b : Byte) (q : List Byte) (more : List Turn),
    s.Inv → s.receiving = true → s.rxcnt = 0#7 → s.channel = pre ++ b :: q → 0xDD#8 ∉ pre →
    pre.length = 63 → s.turns = List.replicate 64 .engine ++ more →
    ∃ t, runsTo 64 s t ∧ t.done = true ∧ rxstatRes t.rxstat = 3#3 ∧ t.rxcnt = 0#7 ∧
      (∀ k, k < 64 → byteAt t.rxbuf k = 0x00#8) ∧ t.channel = [] ∧
      t.elapsed.toNat < t.timeout.toNat ∧ t.turns = more

/-- Every attempt completes at the latest after TIMEOUT ticks, whatever the other agents do meanwhile
(R250): from a reachable state in which an attempt is RECEIVING, any list of turns that holds as many
ticks as the window has left reaches a state in which it is not; with no reset among the turns that state is DONE, with
a result (a reset abandons an attempt, R240). That ticks keep arriving is R250's
assumption about time; here it is the hypothesis on the list (log 11). -/
def Obligations.AttemptsCompleteWithinTheirWindow : Prop :=
  ∀ s : State, s.Inv → s.receiving = true →
    s.timeout.toNat - s.elapsed.toNat ≤ s.turns.count .time →
    ∃ k t, k ≤ s.turns.length ∧ runsTo k s t ∧ t.receiving = false ∧
      (.reset ∉ s.turns → t.done = true ∧ rxstatRes t.rxstat ≠ 0#3)

/-- No command aborts an attempt: a step that ends one is a tick that reaches the window's end, an engine
step that takes a terminator or overflows, or a reset (R218); and only an RX_START with a window that is
not empty begins one. -/
def Obligations.OnlyTheseStepsEndOrBeginAnAttempt : Prop :=
  ∀ s t : State, step s = .next t →
    (s.receiving = true → t.receiving = false →
      (s.ticks ∧ s.elapsed + 1#32 = s.timeout) ∨
      (s.engineMoves ∧ (s.channel.head? = some 0xDD#8 ∨ 63 ≤ s.rxcnt.toNat)) ∨ s.resets) ∧
    (s.receiving = false → t.receiving = true →
      ∃ w : BitVec 32, w ≠ 0#32 ∧ s.performs (.rxStart w) ∧ t.timeout = w ∧ t.elapsed = 0#32)

/-! ## The validator and the accessors (`42_validator.md`) -/

/-- R140, R141, R62: VALIDATE makes its checks in their order, SHORT, HEADER, LENGTH, TERMINATOR, CHECKSUM,
answers OK and VSTAT, and writes VSTAT and CHKCALC only; CHKCALC is the natural-number sum of offsets 1 to
4+plen reduced modulo 256 once, or 0x00 where a check before it failed. In a reachable state the result is
0xC0, or 0x40 plus the reason. -/
def Obligations.ValidateMakesItsChecksInOrder : Prop :=
  OneByteCommand 0x20#8 .validate ∧ BusyWhileReceiving .validate ∧
  (∀ s : State, s.receiving = false →
    (s.rxcnt.toNat < 7 → ValidateGives s 1#3 0x00#8) ∧
    (7 ≤ s.rxcnt.toNat → byteAt s.rxbuf 0 ≠ 0xAA#8 → ValidateGives s 2#3 0x00#8) ∧
    (7 ≤ s.rxcnt.toNat → byteAt s.rxbuf 0 = 0xAA#8 → 7 + storedPlen s ≠ s.rxcnt.toNat →
      ValidateGives s 3#3 0x00#8) ∧
    (7 ≤ s.rxcnt.toNat → byteAt s.rxbuf 0 = 0xAA#8 → 7 + storedPlen s = s.rxcnt.toNat →
      byteAt s.rxbuf (6 + storedPlen s) ≠ 0xDD#8 → ValidateGives s 4#3 0x00#8) ∧
    (7 ≤ s.rxcnt.toNat → byteAt s.rxbuf 0 = 0xAA#8 → 7 + storedPlen s = s.rxcnt.toNat →
      byteAt s.rxbuf (6 + storedPlen s) = 0xDD#8 →
      storedChecksum s ≠ byteAt s.rxbuf (5 + storedPlen s) → ValidateGives s 5#3 (storedChecksum s)) ∧
    (7 ≤ s.rxcnt.toNat → byteAt s.rxbuf 0 = 0xAA#8 → 7 + storedPlen s = s.rxcnt.toNat →
      byteAt s.rxbuf (6 + storedPlen s) = 0xDD#8 →
      storedChecksum s = byteAt s.rxbuf (5 + storedPlen s) → ValidateGives s 0#3 (storedChecksum s))) ∧
  (∀ s t : State, s.Inv → s.receiving = false → exec .validate s = .next t →
    t.vstat = if t.vstat.extractLsb' 0 3 = 0#3 then 0xC0#8
      else 0x40#8 + (t.vstat.extractLsb' 0 3).setWidth 8)

/-- Repeating VALIDATE gives the same result (R140's corner case). -/
def Obligations.ValidateTwiceGivesTheSameResult : Prop :=
  ∀ s t : State, s.receiving = false → exec .validate s = .next t →
    ∃ u, exec .validate t = .next u ∧ u.vstat = t.vstat ∧ u.chkcalc = t.chkcalc ∧
      u.responses.head? = t.responses.head?

/-- VALIDATE reads no byte at or beyond RXCNT (R142, the spec's own inference): two states that differ
only there get the same response, VSTAT and CHKCALC. -/
def Obligations.ValidateReadsOnlyStoredBytes : Prop :=
  ∀ (s : State) (buf : Buffer),
    (∀ k, k < s.rxcnt.toNat → byteAt buf k = byteAt s.rxbuf k) →
    ∃ t : State, exec .validate s = .next t ∧
      exec .validate { s with rxbuf := buf } = .next { t with rxbuf := buf }

/-- VSTAT and CHKCALC are never stale: every step keeps the property that, whenever CHECKED = 1, they are
what VALIDATE finds in the current RXBUF (R143, the spec's own inference). -/
def Obligations.StepKeepsTheVerdictCurrent : Prop :=
  ∀ s t : State, s.VerdictCurrent → step s = .next t → t.VerdictCurrent

/-- R150, R151, R152: FR_HEADER, FR_TYPE and FR_COMMAND answer the stored byte at offset 0, 1 and 2, or
0x00 where it is not stored, and write nothing. -/
def Obligations.HeaderTypeAndCommandAccessors : Prop :=
  ∀ p ∈ [(0x21#8, Instr.frHeader, 0), (0x22#8, Instr.frType, 1), (0x23#8, Instr.frCommand, 2)],
    OneByteCommand p.1 p.2.1 ∧ BusyWhileReceiving p.2.1 ∧
    ∀ s : State, s.receiving = false →
      exec p.2.1 s = .next (s.withResponse
        [0x00#8, if p.2.2 + 1 ≤ s.rxcnt.toNat then byteAt s.rxbuf p.2.2 else 0x00#8])

/-- R153, R141: FR_PLEN answers the raw bytes at offsets 3 and 4, or 0 where fewer than 5 bytes are
stored, and writes nothing. -/
def Obligations.PlenAccessor : Prop :=
  OneByteCommand 0x24#8 .frPlen ∧ BusyWhileReceiving .frPlen ∧
  ∀ s : State, s.receiving = false →
    exec .frPlen s = .next (s.withResponse
      (if 5 ≤ s.rxcnt.toNat then [0x00#8, byteAt s.rxbuf 3, byteAt s.rxbuf 4]
       else [0x00#8, 0x00#8, 0x00#8])) ∧
    (framePlen s).toNat = storedPlen s

/-- R154: FR_PARAM answers parameter byte `i`, at offset 5 + i, and 0x00 at or beyond the parameter length
and where the byte is not stored. -/
def Obligations.ParamAccessor : Prop :=
  TwoByteCommand 0x25#8 .frParam ∧ (∀ i, BusyWhileReceiving (.frParam i)) ∧
  ∀ (i : Byte) (s : State), s.receiving = false →
    exec (.frParam i) s = .next (s.withResponse
      [0x00#8, if i.toNat < storedPlen s ∧ 5 + i.toNat < s.rxcnt.toNat then
        byteAt s.rxbuf (5 + i.toNat) else 0x00#8])

/-- R155, R156: FR_CHECKSUM and FR_TERMINATOR answer the byte at offset 5 + plen and 6 + plen, computed
without wrap, or 0x00 where it is not stored. -/
def Obligations.ChecksumAndTerminatorAccessors : Prop :=
  ∀ p ∈ [(0x26#8, Instr.frChecksum, 5), (0x27#8, Instr.frTerminator, 6)],
    OneByteCommand p.1 p.2.1 ∧ BusyWhileReceiving p.2.1 ∧
    ∀ s : State, s.receiving = false →
      exec p.2.1 s = .next (s.withResponse
        [0x00#8, if p.2.2 + storedPlen s < s.rxcnt.toNat then byteAt s.rxbuf (p.2.2 + storedPlen s)
          else 0x00#8])

/-- R157: FR_CHKCALC answers CHKCALC; that is 0x00 before any VALIDATE since the last RX_START or reset,
and after a VALIDATE that stopped at one of its first four checks. -/
def Obligations.ChkcalcAccessor : Prop :=
  OneByteCommand 0x28#8 .frChkcalc ∧ BusyWhileReceiving .frChkcalc ∧
  (∀ s : State, s.receiving = false →
    exec .frChkcalc s = .next (s.withResponse [0x00#8, s.chkcalc])) ∧
  (∀ s : State, s.receiving = false → s.VerdictCurrent → s.vstat.getLsbD 6 = false →
    exec .frChkcalc s = .next (s.withResponse [0x00#8, 0x00#8])) ∧
  (∀ s t : State, s.receiving = false → exec .validate s = .next t →
    t.vstat.extractLsb' 0 3 ∈ [1#3, 2#3, 3#3, 4#3] →
    exec .frChkcalc t = .next (t.withResponse [0x00#8, 0x00#8]))

/-- Flipping any one bit of any stored byte of a frame that VALIDATE finds valid makes it invalid, with
the reason R161 gives for the byte's offset (R161 is the spec's own inference). -/
def Obligations.SingleBitErrorsAreDetected : Prop :=
  ∀ (s u : State) (i k : Nat), s.receiving = false → exec .validate s = .next u →
    u.vstat.getLsbD 7 = true → i < s.rxcnt.toNat → k < 8 →
    ∃ t, exec .validate (s.withFlippedBit i k) = .next t ∧ t.vstat.getLsbD 7 = false ∧
      t.vstat.extractLsb' 0 3 =
        (if i = 0 then 2#3 else if i = 3 ∨ i = 4 then 3#3
         else if i = 6 + storedPlen s then 4#3 else 5#3)

/-! ## The encoder (`43_encoder.md`) -/

/-- R180: ENC_BUILD, every byte of the frame, the zeros after it, its length, RANGE above 56 parameters,
and what it leaves alone; in every state, an attempt in progress or not. -/
def Obligations.EncBuildWritesTheFrame : Prop :=
  (∀ (c hi lo : Byte) (params : List Byte), params.length = hi.toNat * 256 + lo.toNat →
    decode (0x30#8 :: c :: hi :: lo :: params) = .ok (.encBuild c params)) ∧
  (∀ (c hi lo : Byte) (params : List Byte) (s : State),
    params.length ≠ hi.toNat * 256 + lo.toNat →
    hostCommand (0x30#8 :: c :: hi :: lo :: params) s = .next (s.withResponse [0x04#8])) ∧
  (∀ args s, args.length < 3 →
    hostCommand (0x30#8 :: args) s = .next (s.withResponse [0x04#8])) ∧
  (∀ (c : Byte) (params : List Byte) (s : State), 56 < params.length →
    exec (.encBuild c params) s = .next (s.withResponse [0x02#8])) ∧
  (∀ (c : Byte) (params : List Byte) (s : State), params.length ≤ 56 →
    ∃ t, exec (.encBuild c params) s = .next t ∧
      byteAt t.encbuf 0 = 0xAA#8 ∧ byteAt t.encbuf 1 = 0x00#8 ∧ byteAt t.encbuf 2 = c ∧
      byteAt t.encbuf 3 = 0x00#8 ∧ byteAt t.encbuf 4 = BitVec.ofNat 8 params.length ∧
      (∀ k, k < params.length → byteAt t.encbuf (5 + k) = params.getD k 0x00#8) ∧
      byteAt t.encbuf (5 + params.length) =
        BitVec.ofNat 8 (c.toNat + params.length + (params.map BitVec.toNat).sum) ∧
      byteAt t.encbuf (6 + params.length) = 0xDD#8 ∧
      (∀ k, 7 + params.length ≤ k → k < 64 → byteAt t.encbuf k = 0x00#8) ∧
      t.enclen.toNat = 7 + params.length ∧ t.responses = [0x00#8] :: s.responses ∧
      SameReceiver s t ∧ SameEnvironment s t)

/-- R181 to R184: the four fixed commands write exactly the frames the rules list, and do exactly what
ENC_BUILD does with the operands the rules list. -/
def Obligations.FixedCommandsWriteTheirFrames : Prop :=
  ∀ p ∈ [(0x31#8, Instr.encGetModuleInfo, Instr.encBuild 0x03#8 [0x00#8],
            [0xAA#8, 0x00#8, 0x03#8, 0x00#8, 0x01#8, 0x00#8, 0x04#8, 0xDD#8]),
          (0x32#8, Instr.encSinglePoll, Instr.encBuild 0x22#8 [],
            [0xAA#8, 0x00#8, 0x22#8, 0x00#8, 0x00#8, 0x22#8, 0xDD#8]),
          (0x33#8, Instr.encStartMultiPoll, Instr.encBuild 0x27#8 [0x22#8, 0xFF#8, 0xFF#8],
            [0xAA#8, 0x00#8, 0x27#8, 0x00#8, 0x03#8, 0x22#8, 0xFF#8, 0xFF#8, 0x4A#8, 0xDD#8]),
          (0x34#8, Instr.encStopMultiPoll, Instr.encBuild 0x28#8 [],
            [0xAA#8, 0x00#8, 0x28#8, 0x00#8, 0x00#8, 0x28#8, 0xDD#8])],
    OneByteCommand p.1 p.2.1 ∧
    ∀ s, exec p.2.1 s = exec p.2.2.1 s ∧
      ∃ t, exec p.2.1 s = .next t ∧ t.enclen.toNat = p.2.2.2.length ∧
        (∀ k, k < 64 → byteAt t.encbuf k = p.2.2.2.getD k 0x00#8) ∧
        t.responses = [0x00#8] :: s.responses ∧ SameReceiver s t ∧ SameEnvironment s t

/-- R185, R186: ENC_LEN answers ENCLEN and ENC_READ the byte of ENCBUF, 0x00 at or beyond ENCLEN, in every
state; neither writes anything. -/
def Obligations.EncoderOutputReads : Prop :=
  OneByteCommand 0x35#8 .encLen ∧ TwoByteCommand 0x36#8 .encRead ∧
  (∀ s, exec .encLen s = .next (s.withResponse [0x00#8, BitVec.ofNat 8 s.enclen.toNat])) ∧
  (∀ (i : Byte) (s : State), exec (.encRead i) s = .next (s.withResponse
    [0x00#8, if i.toNat < s.enclen.toNat then byteAt s.encbuf i.toNat else 0x00#8])) ∧
  (∀ (i : Byte) (s : State), s.enclen.toNat ≤ i.toNat ∨ 64 ≤ i.toNat →
    exec (.encRead i) s = .next (s.withResponse [0x00#8, 0x00#8]))

/-- R187: no encoder command reads or writes a receiver register or the channel, and none answers BUSY; no
other command, no engine step and no tick reads or writes ENCBUF or ENCLEN; what a successful encode command
leaves in ENCBUF and ENCLEN depends on its operands alone, and any other leaves them as they are. Said of two
runs that differ only in the other half of the state. -/
def Obligations.EncoderAndReceiverAreIndependent : Prop :=
  (∀ (i : Instr) (s r : State), encoderCommand i = true →
    ∃ t b, exec i s = .next t ∧ SameReceiver s t ∧ t.channel = s.channel ∧
      exec i (s.withReceiver r) = .next (t.withReceiver r) ∧
      t.responses.head? = some b ∧ b.head? ≠ some 0x01#8) ∧
  (∀ (i : Instr) (s e : State), encoderCommand i = false →
    ∃ t, exec i s = .next t ∧ SameEncoder s t ∧
      exec i (s.withEncoder e) = .next (t.withEncoder e)) ∧
  (∀ s e : State, SameEncoder s (engineStep s) ∧
    engineStep (s.withEncoder e) = (engineStep s).withEncoder e) ∧
  (∀ s e : State, SameEncoder s (tick s) ∧ tick (s.withEncoder e) = (tick s).withEncoder e) ∧
  (∀ (i : Instr) (s s' t t' : State), encodeCommand i = true →
    exec i s = .next t → exec i s' = .next t' →
    (t.responses.head? = some [0x00#8] ↔ t'.responses.head? = some [0x00#8]) ∧
    (t.responses.head? = some [0x00#8] → t.encbuf = t'.encbuf ∧ t.enclen = t'.enclen) ∧
    (t.responses.head? ≠ some [0x00#8] → SameEncoder s t)) ∧
  (∀ (i : Instr) (s : State), encoderCommand i = true → encodeCommand i = false →
    ∃ t, exec i s = .next t ∧ SameEncoder s t)

/-- Every frame ENC_BUILD can build passes VALIDATE when its bytes are loaded into the receive buffer (the
round-trip law R160, the spec's own inference). -/
def Obligations.EncodedFramesPassValidate : Prop :=
  ∀ (c : Byte) (params : List Byte) (s : State), params.length ≤ 56 → s.receiving = false →
    s.vstat.extractLsb' 3 3 = 0#3 →
    ∃ t u, exec (.encBuild c params) s = .next t ∧
      exec .validate (t.withStored (encodedBytes t)) = .next u ∧
      u.responses.head? = some [0x00#8, 0xC0#8]

/-- A frame ENC_BUILD built, queued in the channel, is received whole by one attempt whose turns are all the
engine's, and passes VALIDATE, provided no byte at offsets 1 to 5 + n is 0xDD; the bytes behind it stay in the channel (R160,
the spec's own inference). -/
def Obligations.EncodedFramesAreReceivedWhole : Prop :=
  ∀ (c : Byte) (params : List Byte) (s t : State) (q : List Byte) (more : List Turn),
    params.length ≤ 56 → exec (.encBuild c params) s = .next t →
    (∀ k, 1 ≤ k → k ≤ 5 + params.length → byteAt t.encbuf k ≠ 0xDD#8) →
    t.receiving = true → t.rxcnt = 0#7 → t.channel = encodedBytes t ++ q →
    t.turns = List.replicate (7 + params.length) .engine ++ more →
    ∃ u w, runsTo (7 + params.length) t u ∧
      rxstatState u.rxstat = 2#2 ∧ rxstatRes u.rxstat = 1#3 ∧ u.rxcnt.toNat = 7 + params.length ∧
      u.channel = q ∧ exec .validate u = .next w ∧ w.vstat.getLsbD 7 = true

/-! ## The whole machine -/

/-- R240, R241: the state after reset, and a reset from any state: every register takes its reset value,
an attempt in progress is abandoned (STATE is IDLE), and the channel's queue is as it was. -/
def Obligations.ResetRestoresEveryRegister : Prop :=
  (∀ u : State, (u = State.reset ∨ ∃ s : State, s.resets ∧ step s = .next u) →
    (∀ k, k < 64 → byteAt u.rxbuf k = 0x00#8) ∧ u.rxcnt = 0#7 ∧ u.rxstat = 0x00#8 ∧
      u.timeout = 0#32 ∧ u.elapsed = 0#32 ∧ u.vstat = 0x00#8 ∧ u.chkcalc = 0x00#8 ∧
      (∀ k, k < 64 → byteAt u.encbuf k = 0x00#8) ∧ u.enclen = 0#7) ∧
  (∀ s : State, s.resets → ∃ u, step s = .next u ∧ u.channel = s.channel)

/-- The state after reset meets both invariants. -/
def Obligations.ResetMeetsTheInvariants : Prop := State.reset.Inv ∧ State.reset.VerdictCurrent

/-- Every step keeps the invariants of R20, with the register values R13, R16 and R109 say can occur (R20
is the spec's own inference). -/
def Obligations.StepKeepsTheInvariants : Prop :=
  ∀ s t : State, s.Inv → step s = .next t → t.Inv

/-- R50: a command that reads a register, RXBUF or ENCBUF changes no state, in any state of the block;
VALIDATE's response is the VSTAT it leaves; no host command reads or writes the channel, and a step in which
the engine does not move takes no byte from it. -/
def Obligations.ReadsHaveNoSideEffect : Prop :=
  (∀ (i : Instr) (s : State), readOnly i = true → ∃ r, exec i s = .next (s.withResponse r)) ∧
  (∀ (i : Instr) (s : State) (q : List Byte),
    ∃ t, exec i s = .next t ∧ t.channel = s.channel ∧
      exec i (s.withChannel q) = .next (t.withChannel q)) ∧
  (∀ s t : State, s.receiving = false → exec .validate s = .next t →
    t.responses = [0x00#8, t.vstat] :: s.responses) ∧
  (∀ s t : State, step s = .next t → ¬ s.engineMoves → s.channel <+: t.channel)

/-- No step ends in a fault or a refusal: "Nothing in this core is fatal" (`60_exceptions.md`). -/
def Obligations.EveryStepGoesOn : Prop := ∀ s : State, ∃ t, step s = .next t

/-- A host command receives exactly one response, whose first byte is one of the five status codes and
which is that byte alone when the status is not OK (R67, R210); a step that changes the responses performs a
command or is the await loop's own RX_STATUS (R9; that each poll is a turn of the host is the model's choice,
log 12). No command touches the model's own turns, script and transmitted bytes. The last three clauses are the
model's choices: a transmit line changes the transmitted bytes alone, beside taking its turn and its line
(R49 gives the task to the host, log 14), a turn of a host with no line is passed over, and a step with no turn
left changes nothing (log 2). -/
def Obligations.OneResponsePerCommand : Prop :=
  (∀ (bytes : List Byte) (s : State), ∃ t c result, hostCommand bytes s = .next t ∧
    t.responses = (c :: result) :: s.responses ∧ c.toNat ≤ 4 ∧ (c ≠ 0x00#8 → result = []) ∧
    SameEnvironment s t) ∧
  (∀ s t : State, step s = .next t → t.responses ≠ s.responses →
    ∃ rest lines, s.turns = .host :: rest ∧
      ((∃ bytes, s.script = .command bytes :: lines) ∨ s.script = .awaitDone :: lines)) ∧
  (∀ (s : State) (rest : List Turn) (bytes : List Byte) (lines : List HostLine),
    s.turns = .host :: rest → s.script = .transmit bytes :: lines →
    step s = .next { s with turns := rest, script := lines, sent := s.sent ++ bytes }) ∧
  (∀ (s : State) (rest : List Turn), s.turns = .host :: rest → s.script = [] →
    step s = .next { s with turns := rest }) ∧
  (∀ s : State, s.turns = [] → step s = .next s)

/-- Each register is written only by the steps its rule names: RXBUF and RXCNT (R11, R12), RXSTAT (R13),
TIMEOUT (R14), ELAPSED (R15), VSTAT and CHKCALC (R16, R17), ENCBUF and ENCLEN (R18, R19); and the channel
only by its own step and by the engine (R50). -/
def Obligations.RegistersAreWrittenOnlyByTheirRules : Prop :=
  ∀ s t : State, step s = .next t →
    (t.rxbuf ≠ s.rxbuf ∨ t.rxcnt ≠ s.rxcnt →
      (∃ w, s.performs (.rxStart w)) ∨ s.engineMoves ∨ s.resets) ∧
    (t.rxstat ≠ s.rxstat →
      (∃ w, s.performs (.rxStart w)) ∨ s.engineMoves ∨ (s.ticks ∧ s.receiving = true) ∨ s.resets) ∧
    (t.timeout ≠ s.timeout → (∃ w, s.performs (.rxStart w)) ∨ s.resets) ∧
    (t.elapsed ≠ s.elapsed →
      (∃ w, s.performs (.rxStart w)) ∨ (s.ticks ∧ s.receiving = true) ∨ s.resets) ∧
    (t.vstat ≠ s.vstat ∨ t.chkcalc ≠ s.chkcalc →
      (∃ w, s.performs (.rxStart w)) ∨ s.performs .validate ∨ s.resets) ∧
    (t.encbuf ≠ s.encbuf ∨ t.enclen ≠ s.enclen →
      (∃ i, encodeCommand i = true ∧ s.performs i) ∨ s.resets) ∧
    (t.channel ≠ s.channel → s.engineMoves ∨ ∃ b rest, s.turns = .channel b :: rest)

/-- What the channel loses it loses to the engine: a step in which the engine does not move removes no
byte, so bytes wait in order between attempts; an engine step removes the oldest byte, and only an
overflow removes more (R108, R101, R103). So no step but the channel's own outgrows a queue of any depth
(R7). -/
def Obligations.OnlyTheEngineTakesChannelBytes : Prop :=
  ∀ s t : State, step s = .next t →
    (¬ s.engineMoves → s.channel <+: t.channel) ∧
    (s.engineMoves → s.rxcnt.toNat < 63 → t.channel = s.channel.tail) ∧
    (s.engineMoves → 63 ≤ s.rxcnt.toNat → t.channel = []) ∧
    (∀ cap, fitsDepth cap s.channel = true → (∀ b rest, s.turns ≠ .channel b :: rest) →
      fitsDepth cap t.channel = true)

/-- The fields of RXSTAT and VSTAT lie where R13 and R16 put them, read and written. That a write of the
fields keeps the reserved bits, in a register in which they are not 0, is the model's reading (log 7): K1-12
says that they always read as 0 and that no command writes them, and no run reaches such a register. -/
def Obligations.StatusFieldsLieWhereTheSpecPutsThem : Prop :=
  (∀ s : State, (s.receiving = true ↔ s.rxstat.toNat % 4 = 1) ∧
    (s.done = true ↔ s.rxstat.toNat % 4 = 2)) ∧
  (∀ r : Byte, (rxstatRes r).toNat = r.toNat / 16 % 8 ∧ (vstatReason r).toNat = r.toNat % 8 ∧
    (vstatChecked r = true ↔ r.toNat / 64 % 2 = 1) ∧ (vstatValid r = true ↔ r.toNat / 128 = 1)) ∧
  (∀ (r : Byte) (st : RecvState) (res : RecvResult),
    (rxstatWrite r st res).toNat =
      r.toNat / 128 * 128 + res.code.toNat * 16 + r.toNat / 4 % 4 * 4 + st.code.toNat) ∧
  (∀ (v : Byte) (reason : Reason),
    (vstatWrite v reason).toNat =
      (if reason = .ok then 128 else 0) + 64 + v.toNat / 8 % 8 * 8 + reason.code.toNat)

/-! ## The host's notation (`00_scope.md` R9, `30_encoding.md` R80, R81) -/

/-- A host that awaits re-issues RX_STATUS, one response a turn, until STATE is DONE, and only then goes on
with its script (R9, R81). That each poll is a turn of the host is the model's choice (log 12). -/
def Obligations.AwaitPollsUntilDone : Prop :=
  ∀ (s : State) (rest : List Turn) (lines : List HostLine), s.turns = .host :: rest →
    s.script = .awaitDone :: lines →
    step s = .next ({ s with
      turns := rest
      script := if s.rxstat.toNat % 4 = 2 then lines else .awaitDone :: lines }.withResponse
        [0x00#8, s.rxstat])

/-- The assembler takes exactly the operands that fit their fields (R80): t below 2^32, i below 256, c and
the list elements below 256, a list of at most 65535. -/
def Obligations.AssemblerRefusesWhatDoesNotFit : Prop :=
  (∀ t : Nat, (t < 2 ^ 32 →
      assembleOperands .rxStart [.number t] = .ok (.rxStart (BitVec.ofNat 32 t))) ∧
    (2 ^ 32 ≤ t → assembleOperands .rxStart [.number t] = .error .operandTooLarge)) ∧
  (∀ p ∈ [(Opcode.rxRead, Instr.rxRead), (Opcode.frParam, Instr.frParam),
      (Opcode.encRead, Instr.encRead)], ∀ i : Nat,
    (i < 256 → assembleOperands p.1 [.number i] = .ok (p.2 (BitVec.ofNat 8 i))) ∧
    (256 ≤ i → assembleOperands p.1 [.number i] = .error .operandTooLarge)) ∧
  (∀ (c : Nat) (ps : List Nat),
    (c < 256 → (∀ p ∈ ps, p < 256) → ps.length ≤ 65535 →
      assembleOperands .encBuild [.number c, .list ps] =
        .ok (.encBuild (BitVec.ofNat 8 c) (ps.map (BitVec.ofNat 8)))) ∧
    (256 ≤ c ∨ (∃ p ∈ ps, 256 ≤ p) ∨ 65535 < ps.length →
      assembleOperands .encBuild [.number c, .list ps] = .error .operandTooLarge))

/-- R81: the pseudo-instructions expand to RX_START t and the await loop, to these and VALIDATE, and to
`ENC_BUILD c, []`. -/
def Obligations.PseudoInstructionsExpand : Prop :=
  (∀ t : Nat, t < 2 ^ 32 →
    assembleCommand "RECEIVE".toList [.number t] =
      .ok [.command (encode (.rxStart (BitVec.ofNat 32 t))), .awaitDone]) ∧
  (∀ t : Nat, t < 2 ^ 32 →
    assembleCommand "RECEIVE_VALID".toList [.number t] =
      .ok [.command (encode (.rxStart (BitVec.ofNat 32 t))), .awaitDone, .command [0x20#8]]) ∧
  (∀ c : Nat, c < 256 →
    assembleCommand "ENC_BUILD".toList [.number c] =
      assembleCommand "ENC_BUILD".toList [.number c, .list []] ∧
    assembleCommand "ENC_BUILD".toList [.number c] =
      .ok [.command [0x30#8, BitVec.ofNat 8 c, 0x00#8, 0x00#8]])

/-! ## Attempts under every interleaving -/

/-- Whatever step is taken while an attempt runs, the stored bytes followed by the queued ones are as before,
plus the byte that a channel turn appends: no byte is lost, repeated, changed or moved (R48, R101, R102, R107).
The exceptions are an overflow, which empties both (R103), and a reset. -/
def Obligations.StepKeepsTheByteStream : Prop :=
  ∀ s t : State, s.Inv → s.receiving = true → step s = .next t → ¬ s.resets →
    rxstatRes t.rxstat ≠ 3#3 →
    storedBytes t ++ t.channel = storedBytes s ++ s.channel ++ arrivals (s.turns.take 1)

/-- However ticks, channel bytes, host commands and engine steps interleave, an attempt stores a prefix of its
stream: from any moment of the attempt on, that is the bytes stored so far (none at its start), those queued
and those that arrive (R101, R107; R107 is the spec's own inference). If it ends with FRAME or BADFRAME the prefix goes through the first terminator, and the result
is FRAME exactly when a header came first (R104); if it overflows, the stream's first 63 bytes hold no
terminator and the channel is left empty (R103). -/
def Obligations.AttemptsTakeAPrefixOfTheirStream : Prop :=
  ∀ (k : Nat) (s t : State), s.Inv → s.receiving = true →
    .reset ∉ s.turns.take k → runsTo k s t →
    (∀ j u, j < k → runsTo j s u → u.receiving = true) →
    (rxstatRes t.rxstat ≠ 3#3 →
      storedBytes t ++ t.channel = storedBytes s ++ s.channel ++ arrivals (s.turns.take k)) ∧
    (rxstatRes t.rxstat = 1#3 ∨ rxstatRes t.rxstat = 4#3 →
      ∃ pre, storedBytes t = pre ++ [0xDD#8] ∧ 0xDD#8 ∉ pre ∧
        (rxstatRes t.rxstat = 1#3 ↔ pre.head? = some 0xAA#8)) ∧
    (rxstatRes t.rxstat = 3#3 →
      t.channel = [] ∧ 64 ≤ (storedBytes s ++ s.channel ++ arrivals (s.turns.take k)).length ∧
        0xDD#8 ∉ (storedBytes s ++ s.channel ++ arrivals (s.turns.take k)).take 63)

/-- No step but a reset, and for VSTAT an RX_START, which writes it whole (R100), changes a reserved bit of
RXSTAT or VSTAT (K1-12). That a write of the fields keeps them, in a state in which they are not 0, is the
model's reading (log 7); no run reaches such a state (R13, R16). -/
def Obligations.ReservedBitsAreKept : Prop :=
  ∀ s t : State, step s = .next t → ¬ s.resets →
    t.rxstat &&& 0x8C#8 = s.rxstat &&& 0x8C#8 ∧
    ((∃ w, s.performs (.rxStart w)) ∨ t.vstat.extractLsb' 3 3 = s.vstat.extractLsb' 3 3)
end

