-- ==== Sys2Proof/Laws/State.lean ====
section
/-! SUPPORT. What each update of the state leaves in each field. One lemma an update, a conjunction over
the fields, which simp takes apart. -/

namespace Sys2Proof.Machine

@[simp] theorem State.withChannel_fields (s : State) (q : List Byte) :
    (s.withChannel q).rxbuf = s.rxbuf ∧ (s.withChannel q).rxcnt = s.rxcnt ∧
    (s.withChannel q).rxstat = s.rxstat ∧ (s.withChannel q).timeout = s.timeout ∧
    (s.withChannel q).elapsed = s.elapsed ∧ (s.withChannel q).vstat = s.vstat ∧
    (s.withChannel q).chkcalc = s.chkcalc ∧ (s.withChannel q).encbuf = s.encbuf ∧
    (s.withChannel q).enclen = s.enclen ∧ (s.withChannel q).channel = q ∧
    (s.withChannel q).sent = s.sent ∧ (s.withChannel q).responses = s.responses ∧
    (s.withChannel q).script = s.script ∧ (s.withChannel q).turns = s.turns :=
  ⟨rfl, rfl, rfl, rfl, rfl, rfl, rfl, rfl, rfl, rfl, rfl, rfl, rfl, rfl⟩

@[simp] theorem State.withElapsed_fields (s : State) (e : BitVec 32) :
    (s.withElapsed e).rxbuf = s.rxbuf ∧ (s.withElapsed e).rxcnt = s.rxcnt ∧
    (s.withElapsed e).rxstat = s.rxstat ∧ (s.withElapsed e).timeout = s.timeout ∧
    (s.withElapsed e).elapsed = e ∧ (s.withElapsed e).vstat = s.vstat ∧
    (s.withElapsed e).chkcalc = s.chkcalc ∧ (s.withElapsed e).encbuf = s.encbuf ∧
    (s.withElapsed e).enclen = s.enclen ∧ (s.withElapsed e).channel = s.channel ∧
    (s.withElapsed e).sent = s.sent ∧ (s.withElapsed e).responses = s.responses ∧
    (s.withElapsed e).script = s.script ∧ (s.withElapsed e).turns = s.turns :=
  ⟨rfl, rfl, rfl, rfl, rfl, rfl, rfl, rfl, rfl, rfl, rfl, rfl, rfl, rfl⟩

@[simp] theorem State.withTurns_fields (s : State) (turns : List Turn) :
    (s.withTurns turns).rxbuf = s.rxbuf ∧ (s.withTurns turns).rxcnt = s.rxcnt ∧
    (s.withTurns turns).rxstat = s.rxstat ∧ (s.withTurns turns).timeout = s.timeout ∧
    (s.withTurns turns).elapsed = s.elapsed ∧ (s.withTurns turns).vstat = s.vstat ∧
    (s.withTurns turns).chkcalc = s.chkcalc ∧ (s.withTurns turns).encbuf = s.encbuf ∧
    (s.withTurns turns).enclen = s.enclen ∧ (s.withTurns turns).channel = s.channel ∧
    (s.withTurns turns).sent = s.sent ∧ (s.withTurns turns).responses = s.responses ∧
    (s.withTurns turns).script = s.script ∧ (s.withTurns turns).turns = turns :=
  ⟨rfl, rfl, rfl, rfl, rfl, rfl, rfl, rfl, rfl, rfl, rfl, rfl, rfl, rfl⟩

@[simp] theorem State.withScript_fields (s : State) (script : List HostLine) :
    (s.withScript script).rxbuf = s.rxbuf ∧ (s.withScript script).rxcnt = s.rxcnt ∧
    (s.withScript script).rxstat = s.rxstat ∧ (s.withScript script).timeout = s.timeout ∧
    (s.withScript script).elapsed = s.elapsed ∧ (s.withScript script).vstat = s.vstat ∧
    (s.withScript script).chkcalc = s.chkcalc ∧ (s.withScript script).encbuf = s.encbuf ∧
    (s.withScript script).enclen = s.enclen ∧ (s.withScript script).channel = s.channel ∧
    (s.withScript script).sent = s.sent ∧ (s.withScript script).responses = s.responses ∧
    (s.withScript script).script = script ∧ (s.withScript script).turns = s.turns :=
  ⟨rfl, rfl, rfl, rfl, rfl, rfl, rfl, rfl, rfl, rfl, rfl, rfl, rfl, rfl⟩

@[simp] theorem State.withResponse_fields (s : State) (r : List Byte) :
    (s.withResponse r).rxbuf = s.rxbuf ∧ (s.withResponse r).rxcnt = s.rxcnt ∧
    (s.withResponse r).rxstat = s.rxstat ∧ (s.withResponse r).timeout = s.timeout ∧
    (s.withResponse r).elapsed = s.elapsed ∧ (s.withResponse r).vstat = s.vstat ∧
    (s.withResponse r).chkcalc = s.chkcalc ∧ (s.withResponse r).encbuf = s.encbuf ∧
    (s.withResponse r).enclen = s.enclen ∧ (s.withResponse r).channel = s.channel ∧
    (s.withResponse r).sent = s.sent ∧ (s.withResponse r).responses = r :: s.responses ∧
    (s.withResponse r).script = s.script ∧ (s.withResponse r).turns = s.turns :=
  ⟨rfl, rfl, rfl, rfl, rfl, rfl, rfl, rfl, rfl, rfl, rfl, rfl, rfl, rfl⟩

@[simp] theorem completeWith_fields (res : RecvResult) (s : State) :
    (completeWith res s).rxbuf = s.rxbuf ∧ (completeWith res s).rxcnt = s.rxcnt ∧
    (completeWith res s).rxstat = rxstatWrite s.rxstat .done res ∧
    (completeWith res s).timeout = s.timeout ∧ (completeWith res s).elapsed = s.elapsed ∧
    (completeWith res s).vstat = s.vstat ∧ (completeWith res s).chkcalc = s.chkcalc ∧
    (completeWith res s).encbuf = s.encbuf ∧ (completeWith res s).enclen = s.enclen ∧
    (completeWith res s).channel = s.channel ∧ (completeWith res s).sent = s.sent ∧
    (completeWith res s).responses = s.responses ∧ (completeWith res s).script = s.script ∧
    (completeWith res s).turns = s.turns :=
  ⟨rfl, rfl, rfl, rfl, rfl, rfl, rfl, rfl, rfl, rfl, rfl, rfl, rfl, rfl⟩

@[simp] theorem appendByte_fields (b : Byte) (s : State) :
    (appendByte b s).rxbuf = writeByte s.rxbuf s.rxcnt.toNat b ∧
    (appendByte b s).rxcnt = s.rxcnt + 1#7 ∧ (appendByte b s).rxstat = s.rxstat ∧
    (appendByte b s).timeout = s.timeout ∧ (appendByte b s).elapsed = s.elapsed ∧
    (appendByte b s).vstat = s.vstat ∧ (appendByte b s).chkcalc = s.chkcalc ∧
    (appendByte b s).encbuf = s.encbuf ∧ (appendByte b s).enclen = s.enclen ∧
    (appendByte b s).channel = s.channel ∧ (appendByte b s).sent = s.sent ∧
    (appendByte b s).responses = s.responses ∧ (appendByte b s).script = s.script ∧
    (appendByte b s).turns = s.turns :=
  ⟨rfl, rfl, rfl, rfl, rfl, rfl, rfl, rfl, rfl, rfl, rfl, rfl, rfl, rfl⟩

@[simp] theorem overflow_fields (s : State) :
    (overflow s).rxbuf = clearedBuffer ∧ (overflow s).rxcnt = 0#7 ∧
    (overflow s).rxstat = rxstatWrite s.rxstat .done .overflow ∧
    (overflow s).timeout = s.timeout ∧ (overflow s).elapsed = s.elapsed ∧
    (overflow s).vstat = s.vstat ∧ (overflow s).chkcalc = s.chkcalc ∧
    (overflow s).encbuf = s.encbuf ∧ (overflow s).enclen = s.enclen ∧ (overflow s).channel = [] ∧
    (overflow s).sent = s.sent ∧ (overflow s).responses = s.responses ∧
    (overflow s).script = s.script ∧ (overflow s).turns = s.turns :=
  ⟨rfl, rfl, rfl, rfl, rfl, rfl, rfl, rfl, rfl, rfl, rfl, rfl, rfl, rfl⟩

@[simp] theorem startAttempt_fields (t : BitVec 32) (s : State) :
    (startAttempt t s).rxbuf = clearedBuffer ∧ (startAttempt t s).rxcnt = 0#7 ∧
    (startAttempt t s).rxstat = (if t = 0#32 then rxstatWrite s.rxstat .done .timeout
        else rxstatWrite s.rxstat .receiving .none) ∧
    (startAttempt t s).timeout = t ∧ (startAttempt t s).elapsed = 0#32 ∧
    (startAttempt t s).vstat = 0x00#8 ∧ (startAttempt t s).chkcalc = 0x00#8 ∧
    (startAttempt t s).encbuf = s.encbuf ∧ (startAttempt t s).enclen = s.enclen ∧
    (startAttempt t s).channel = s.channel ∧ (startAttempt t s).sent = s.sent ∧
    (startAttempt t s).responses = s.responses ∧ (startAttempt t s).script = s.script ∧
    (startAttempt t s).turns = s.turns :=
  ⟨rfl, rfl, rfl, rfl, rfl, rfl, rfl, rfl, rfl, rfl, rfl, rfl, rfl, rfl⟩

@[simp] theorem recordVerdict_fields (s : State) :
    (recordVerdict s).rxbuf = s.rxbuf ∧ (recordVerdict s).rxcnt = s.rxcnt ∧
    (recordVerdict s).rxstat = s.rxstat ∧ (recordVerdict s).timeout = s.timeout ∧
    (recordVerdict s).elapsed = s.elapsed ∧
    (recordVerdict s).vstat = vstatWrite s.vstat (judge s).1 ∧
    (recordVerdict s).chkcalc = (judge s).2 ∧ (recordVerdict s).encbuf = s.encbuf ∧
    (recordVerdict s).enclen = s.enclen ∧ (recordVerdict s).channel = s.channel ∧
    (recordVerdict s).sent = s.sent ∧ (recordVerdict s).responses = s.responses ∧
    (recordVerdict s).script = s.script ∧ (recordVerdict s).turns = s.turns :=
  ⟨rfl, rfl, rfl, rfl, rfl, rfl, rfl, rfl, rfl, rfl, rfl, rfl, rfl, rfl⟩

@[simp] theorem recordFrame_fields (c : Byte) (params : List Byte) (s : State) :
    (recordFrame c params s).rxbuf = s.rxbuf ∧ (recordFrame c params s).rxcnt = s.rxcnt ∧
    (recordFrame c params s).rxstat = s.rxstat ∧ (recordFrame c params s).timeout = s.timeout ∧
    (recordFrame c params s).elapsed = s.elapsed ∧ (recordFrame c params s).vstat = s.vstat ∧
    (recordFrame c params s).chkcalc = s.chkcalc ∧
    (recordFrame c params s).encbuf = bufferOf (buildFrame c params) ∧
    (recordFrame c params s).enclen = BitVec.ofNat 7 (7 + params.length) ∧
    (recordFrame c params s).channel = s.channel ∧ (recordFrame c params s).sent = s.sent ∧
    (recordFrame c params s).responses = s.responses ∧
    (recordFrame c params s).script = s.script ∧ (recordFrame c params s).turns = s.turns :=
  ⟨rfl, rfl, rfl, rfl, rfl, rfl, rfl, rfl, rfl, rfl, rfl, rfl, rfl, rfl⟩

@[simp] theorem chanAppend_fields (b : Byte) (s : State) :
    (chanAppend b s).rxbuf = s.rxbuf ∧ (chanAppend b s).rxcnt = s.rxcnt ∧
    (chanAppend b s).rxstat = s.rxstat ∧ (chanAppend b s).timeout = s.timeout ∧
    (chanAppend b s).elapsed = s.elapsed ∧ (chanAppend b s).vstat = s.vstat ∧
    (chanAppend b s).chkcalc = s.chkcalc ∧ (chanAppend b s).encbuf = s.encbuf ∧
    (chanAppend b s).enclen = s.enclen ∧ (chanAppend b s).channel = s.channel ++ [b] ∧
    (chanAppend b s).sent = s.sent ∧ (chanAppend b s).responses = s.responses ∧
    (chanAppend b s).script = s.script ∧ (chanAppend b s).turns = s.turns :=
  ⟨rfl, rfl, rfl, rfl, rfl, rfl, rfl, rfl, rfl, rfl, rfl, rfl, rfl, rfl⟩

/-- Reset leaves the spec's reset value in every register and nothing changed outside the block. -/
@[simp] theorem resetBlock_fields (s : State) :
    (resetBlock s).rxbuf = State.reset.rxbuf ∧ (resetBlock s).rxcnt = 0#7 ∧
    (resetBlock s).rxstat = 0x00#8 ∧ (resetBlock s).timeout = 0#32 ∧
    (resetBlock s).elapsed = 0#32 ∧ (resetBlock s).vstat = 0x00#8 ∧
    (resetBlock s).chkcalc = 0x00#8 ∧ (resetBlock s).encbuf = State.reset.encbuf ∧
    (resetBlock s).enclen = 0#7 ∧ (resetBlock s).channel = s.channel ∧
    (resetBlock s).sent = s.sent ∧ (resetBlock s).responses = s.responses ∧
    (resetBlock s).script = s.script ∧ (resetBlock s).turns = s.turns :=
  ⟨rfl, rfl, rfl, rfl, rfl, rfl, rfl, rfl, rfl, rfl, rfl, rfl, rfl, rfl⟩

/-! What the status tests and the validator read is untouched by these updates. -/

@[simp] theorem State.withChannel_reads (s : State) (q : List Byte) :
    (s.withChannel q).receiving = s.receiving ∧ (s.withChannel q).done = s.done ∧
      judge (s.withChannel q) = judge s ∧ frameOK (s.withChannel q) = frameOK s :=
  ⟨rfl, rfl, rfl, rfl⟩

@[simp] theorem State.withElapsed_reads (s : State) (e : BitVec 32) :
    (s.withElapsed e).receiving = s.receiving ∧ (s.withElapsed e).done = s.done ∧
      judge (s.withElapsed e) = judge s ∧ frameOK (s.withElapsed e) = frameOK s :=
  ⟨rfl, rfl, rfl, rfl⟩

@[simp] theorem State.withTurns_reads (s : State) (turns : List Turn) :
    (s.withTurns turns).receiving = s.receiving ∧ (s.withTurns turns).done = s.done ∧
      judge (s.withTurns turns) = judge s ∧ frameOK (s.withTurns turns) = frameOK s :=
  ⟨rfl, rfl, rfl, rfl⟩

@[simp] theorem State.withScript_reads (s : State) (script : List HostLine) :
    (s.withScript script).receiving = s.receiving ∧ (s.withScript script).done = s.done ∧
      judge (s.withScript script) = judge s ∧ frameOK (s.withScript script) = frameOK s :=
  ⟨rfl, rfl, rfl, rfl⟩

@[simp] theorem State.withResponse_reads (s : State) (r : List Byte) :
    (s.withResponse r).receiving = s.receiving ∧ (s.withResponse r).done = s.done ∧
      judge (s.withResponse r) = judge s ∧ frameOK (s.withResponse r) = frameOK s :=
  ⟨rfl, rfl, rfl, rfl⟩

/-- `receiving` and `done` read RXSTAT alone. -/
theorem receiving_eq (s : State) : s.receiving = (rxstatState s.rxstat == 1#2) := rfl

theorem done_eq (s : State) : s.done = (rxstatState s.rxstat == 2#2) := rfl

end Sys2Proof.Machine
end

