-- ==== Sys2Proof/Laws/Buffer.lean ====
section
/-! SUPPORT. The laws of the byte arrays: read after write, the cleared array, an array made from a list,
and that equal reads mean equal arrays. -/

namespace Sys2Proof.Machine

theorem byteAt_of_lt (buf : Buffer) {i : Nat} (h : i < 64) : byteAt buf i = buf[i] := by
  simp [byteAt, h]

theorem byteAt_of_le (buf : Buffer) {i : Nat} (h : 64 ≤ i) : byteAt buf i = 0x00#8 := by
  simp [byteAt, h]

theorem byteAt_writeByte (buf : Buffer) {i : Nat} (v : Byte) (j : Nat) (h : i < 64) :
    byteAt (writeByte buf i v) j = if j = i then v else byteAt buf j := by
  unfold byteAt writeByte
  by_cases hj : j < 64
  · simp [hj, Vector.getElem_setIfInBounds, eq_comm]
  · have : j ≠ i := by omega
    simp [hj, this]

@[simp] theorem byteAt_writeByte_self (buf : Buffer) {i : Nat} (v : Byte) (h : i < 64) :
    byteAt (writeByte buf i v) i = v := by
  simp [byteAt_writeByte, h]

theorem byteAt_writeByte_ne (buf : Buffer) {i j : Nat} (v : Byte) (h : j ≠ i) :
    byteAt (writeByte buf i v) j = byteAt buf j := by
  unfold byteAt writeByte
  split
  · simp [Ne.symm h]
  · rfl

theorem byteAt_bufferOf (bytes : List Byte) {i : Nat} (h : i < 64) :
    byteAt (bufferOf bytes) i = bytes.getD i 0x00#8 := by
  simp [byteAt, bufferOf, h]

/-- A list that fits the array is read back at every index. -/
theorem byteAt_bufferOf_of_fits {bytes : List Byte} (hl : bytes.length ≤ 64) (i : Nat) :
    byteAt (bufferOf bytes) i = bytes.getD i 0x00#8 := by
  by_cases h : i < 64
  · exact byteAt_bufferOf bytes h
  · rw [byteAt_of_le _ (by omega), List.getD_eq_default _ _ (by omega)]

@[simp] theorem byteAt_clearedBuffer (i : Nat) : byteAt clearedBuffer i = 0x00#8 := by
  unfold clearedBuffer
  rw [byteAt_bufferOf_of_fits (by simp)]
  simp

theorem buffer_ext {a b : Buffer} (h : ∀ i < 64, byteAt a i = byteAt b i) : a = b := by
  apply Vector.ext
  intro i hi
  have := h i hi
  rwa [byteAt_of_lt a hi, byteAt_of_lt b hi] at this

theorem reset_rxbuf : State.reset.rxbuf = clearedBuffer := by decide

theorem reset_encbuf : State.reset.encbuf = clearedBuffer := by decide

end Sys2Proof.Machine
end

