-- ==== Sys2Proof/Laws/Decode.lean ====
section
/-! SUPPORT. The decoder and the encoder: the opcode map read both ways, byte order, and the operand
decoders one by one. -/

namespace Sys2Proof

@[simp] theorem Opcode.ofByte_code (o : Opcode) : Opcode.ofByte o.code = some o := by
  cases o <;> decide

/-- An opcode byte names at most one row, the one whose byte it is. -/
theorem Opcode.code_of_ofByte {b : Byte} {o : Opcode} (h : Opcode.ofByte b = some o) : o.code = b := by
  simpa using List.find?_some h

theorem Opcode.code_injective {a b : Opcode} (h : a.code = b.code) : a = b := by
  have := congrArg Opcode.ofByte h
  simpa using this

@[simp] theorem be32_bytes32 (v : BitVec 32) :
    be32 (v.extractLsb' 24 8) (v.extractLsb' 16 8) (v.extractLsb' 8 8) (v.extractLsb' 0 8) = v := by
  unfold be32
  ext i hi
  simp only [BitVec.getElem_append, BitVec.getElem_extractLsb']
  split
  · simp [BitVec.getLsbD_eq_getElem hi]
  · split
    · rw [show 8 + (i - 8) = i by omega, BitVec.getLsbD_eq_getElem hi]
    · split
      · rw [show 16 + (i - 8 - 8) = i by omega, BitVec.getLsbD_eq_getElem hi]
      · rw [show 24 + (i - 8 - 8 - 8) = i by omega, BitVec.getLsbD_eq_getElem hi]

@[simp] theorem be16_bytes16 (v : BitVec 16) :
    be16 (v.extractLsb' 8 8) (v.extractLsb' 0 8) = v := by
  unfold be16
  ext i hi
  simp only [BitVec.getElem_append, BitVec.getElem_extractLsb']
  split
  · simp [BitVec.getLsbD_eq_getElem hi]
  · rw [show 8 + (i - 8) = i by omega, BitVec.getLsbD_eq_getElem hi]

/-- Appending a byte below a value: `{a, b} = a * 256 + b` (R8). -/
theorem append_byte_toNat {n : Nat} (hi : BitVec n) (lo : Byte) :
    (hi ++ lo).toNat = hi.toNat * 256 + lo.toNat := by
  rw [BitVec.toNat_append, ← Nat.shiftLeft_add_eq_or_of_lt lo.isLt, Nat.shiftLeft_eq]

theorem be16_toNat (hi lo : Byte) : (be16 hi lo).toNat = hi.toNat * 256 + lo.toNat :=
  append_byte_toNat hi lo

theorem be32_toNat (b3 b2 b1 b0 : Byte) :
    (be32 b3 b2 b1 b0).toNat =
      ((b3.toNat * 256 + b2.toNat) * 256 + b1.toNat) * 256 + b0.toNat := by
  unfold be32
  simp only [append_byte_toNat]

@[simp] theorem bytes32_be32 (b3 b2 b1 b0 : Byte) :
    bytes32 (be32 b3 b2 b1 b0) = [b3, b2, b1, b0] := by
  have h3 := b3.isLt
  have h2 := b2.isLt
  have h1 := b1.isLt
  have h0 := b0.isLt
  simp only [bytes32, List.cons.injEq, and_true]
  refine ⟨?_, ?_, ?_, ?_⟩ <;> apply BitVec.eq_of_toNat_eq <;>
    simp only [BitVec.extractLsb'_toNat, be32_toNat, Nat.shiftRight_eq_div_pow] <;> omega

@[simp] theorem bytes16_be16 (hi lo : Byte) : bytes16 (be16 hi lo) = [hi, lo] := by
  have hhi := hi.isLt
  have hlo := lo.isLt
  simp only [bytes16, List.cons.injEq, and_true]
  constructor <;> apply BitVec.eq_of_toNat_eq <;>
    simp only [BitVec.extractLsb'_toNat, be16_toNat, Nat.shiftRight_eq_div_pow] <;> omega

theorem noOperand_ok {i j : Instr} {args : List Byte} :
    noOperand i args = .ok j ↔ args = [] ∧ j = i := by
  cases args <;> simp [noOperand, eq_comm]

theorem oneByteOperand_ok {f : Byte → Instr} {j : Instr} {args : List Byte} :
    oneByteOperand f args = .ok j ↔ ∃ k, args = [k] ∧ j = f k := by
  match args with
  | [] => simp [oneByteOperand]
  | [k] => simp [oneByteOperand, eq_comm]
  | _ :: _ :: _ => simp [oneByteOperand]

theorem timeoutOperand_ok {j : Instr} {args : List Byte} :
    timeoutOperand args = .ok j ↔
      ∃ b3 b2 b1 b0, args = [b3, b2, b1, b0] ∧ j = .rxStart (be32 b3 b2 b1 b0) := by
  match args with
  | [] | [_] | [_, _] | [_, _, _] | _ :: _ :: _ :: _ :: _ :: _ => simp [timeoutOperand]
  | [b3, b2, b1, b0] => simp [timeoutOperand, eq_comm]

theorem buildOperands_ok {j : Instr} {args : List Byte} :
    buildOperands args = .ok j ↔
      ∃ c hi lo params, args = c :: hi :: lo :: params ∧ params.length = (be16 hi lo).toNat ∧
        j = .encBuild c params := by
  match args with
  | [] | [_] | [_, _] => simp [buildOperands]
  | c :: hi :: lo :: params =>
    by_cases h : params.length = (be16 hi lo).toNat
    · simp [buildOperands, h, eq_comm]
    · simp only [buildOperands, h, if_false]
      constructor
      · simp
      · rintro ⟨c', hi', lo', ps', he, hl, _⟩
        simp only [List.cons.injEq] at he
        obtain ⟨_, rfl, rfl, rfl⟩ := he
        exact absurd hl h

/-- A command has its row's length (R70). -/
theorem encode_length_of_opcode (i : Instr) :
    (encode i).length =
      i.opcode.commandLength (match i with | .encBuild _ params => params.length | _ => 0) := by
  cases i <;>
    simp [encode, Instr.operandBytes, Instr.opcode, Opcode.commandLength, bytes32, bytes16]
  omega

end Sys2Proof
end

