-- ==== Sys2Proof/Laws/Flags.lean ====
section
/-! SUPPORT. The fields of RXSTAT and VSTAT: what a write leaves in each field. -/

namespace Sys2Proof.Machine

@[simp] theorem rxstatState_write (r : Byte) (st : RecvState) (res : RecvResult) :
    rxstatState (rxstatWrite r st res) = st.code := by
  revert r; cases st <;> cases res <;> decide

@[simp] theorem rxstatRes_write (r : Byte) (st : RecvState) (res : RecvResult) :
    rxstatRes (rxstatWrite r st res) = res.code := by
  revert r; cases st <;> cases res <;> decide

/-- The reserved bits keep what they hold, by the model's reading of K1-12. Log 7. -/
theorem rxstatWrite_reserved (r : Byte) (st : RecvState) (res : RecvResult) :
    rxstatWrite r st res &&& 0x8C#8 = r &&& 0x8C#8 := by
  revert r; cases st <;> cases res <;> decide

theorem rxstatWrite_of_legal {r : Byte} (st : RecvState) (res : RecvResult)
    (h : r &&& 0x8C#8 = 0x00#8) :
    rxstatWrite r st res = res.code.setWidth 8 <<< 4 ||| st.code.setWidth 8 := by
  revert r; cases st <;> cases res <;> decide

@[simp] theorem vstatReason_write (v : Byte) (reason : Reason) :
    vstatReason (vstatWrite v reason) = reason.code := by
  revert v; cases reason <;> decide

@[simp] theorem vstatChecked_write (v : Byte) (reason : Reason) :
    vstatChecked (vstatWrite v reason) = true := by
  revert v; cases reason <;> decide

@[simp] theorem vstatValid_write (v : Byte) (reason : Reason) :
    vstatValid (vstatWrite v reason) = (reason == .ok) := by
  revert v; cases reason <;> decide

/-- The reserved bits keep what they hold, by the model's reading of K1-12. Log 7. -/
theorem vstatWrite_reserved (v : Byte) (reason : Reason) :
    (vstatWrite v reason).extractLsb' 3 3 = v.extractLsb' 3 3 := by
  revert v; cases reason <;> decide

theorem reason_code_injective {a b : Reason} (h : a.code = b.code) : a = b := by
  revert h; cases a <;> cases b <;> decide

@[simp] theorem receiving_completeWith (res : RecvResult) (s : State) :
    (completeWith res s).receiving = false := by
  simp [State.receiving, RecvState.code]

@[simp] theorem done_completeWith (res : RecvResult) (s : State) :
    (completeWith res s).done = true := by
  simp [State.done, RecvState.code]

/-- An attempt that runs is not complete. -/
theorem done_of_receiving {s : State} (h : s.receiving = true) : s.done = false := by
  simp only [receiving_eq, done_eq, beq_iff_eq, beq_eq_false_iff_ne] at *
  simp [h]

end Sys2Proof.Machine
end

