-- ==== Sys2Proof/Laws/Engine.lean ====
section
/-! SUPPORT. Everything the autonomous steps can do: one lemma per case of EngineByte and Tick. -/

namespace Sys2Proof.Machine

theorem engineStep_disabled {s : State} (h : s.receiving = false ∨ s.channel = []) :
    engineStep s = s := by
  rcases h with h | h <;> simp [engineStep, chanPop, h]

theorem engineStep_enabled {s : State} {b : Byte} {q : List Byte} (h : s.receiving = true)
    (hq : s.channel = b :: q) : engineStep s = acceptByte b (s.withChannel q) := by
  simp [engineStep, chanPop, h, hq]

theorem acceptByte_full {s : State} (b : Byte) (h : 63 ≤ s.rxcnt.toNat) : acceptByte b s = overflow s := by
  simp [acceptByte, h]

theorem acceptByte_plain {s : State} {b : Byte} (h : s.rxcnt.toNat < 63) (hb : b ≠ 0xDD#8) :
    acceptByte b s = appendByte b s := by
  simp [acceptByte, Nat.not_le.mpr h, hb]

theorem acceptByte_terminator {s : State} (h : s.rxcnt.toNat < 63) :
    acceptByte 0xDD#8 s = terminatorStop (appendByte 0xDD#8 s) := by
  simp [acceptByte, Nat.not_le.mpr h]

/-- The engine's step in one of its four forms. -/
theorem engineStep_cases (s : State) :
    engineStep s = s ∨
    ∃ b q, s.receiving = true ∧ s.channel = b :: q ∧
      ((63 ≤ s.rxcnt.toNat ∧ engineStep s = overflow (s.withChannel q)) ∨
       (s.rxcnt.toNat < 63 ∧ b ≠ 0xDD#8 ∧ engineStep s = appendByte b (s.withChannel q)) ∨
       (s.rxcnt.toNat < 63 ∧ b = 0xDD#8 ∧
          engineStep s = terminatorStop (appendByte b (s.withChannel q)))) := by
  cases hr : s.receiving
  · exact .inl (engineStep_disabled (.inl hr))
  · cases hq : s.channel with
    | nil => exact .inl (engineStep_disabled (.inr hq))
    | cons b q =>
      refine .inr ⟨b, q, rfl, rfl, ?_⟩
      rw [engineStep_enabled hr hq]
      by_cases hf : 63 ≤ s.rxcnt.toNat
      · exact .inl ⟨hf, acceptByte_full b hf⟩
      · by_cases hb : b = 0xDD#8
        · subst hb
          exact .inr (.inr ⟨by omega, rfl, acceptByte_terminator (by simp; omega)⟩)
        · exact .inr (.inl ⟨by omega, hb, acceptByte_plain (by simp; omega) hb⟩)

/-- The count after an append that had room. -/
theorem appendByte_count {s : State} (b : Byte) (h : s.rxcnt.toNat < 63) :
    (appendByte b s).rxcnt.toNat = s.rxcnt.toNat + 1 := by
  simp [BitVec.toNat_add]
  omega

theorem appendByte_byteAt {s : State} (b : Byte) (h : s.rxcnt.toNat < 63) (i : Nat) :
    byteAt (appendByte b s).rxbuf i = if i = s.rxcnt.toNat then b else byteAt s.rxbuf i := by
  simp only [appendByte_fields]
  exact byteAt_writeByte _ _ _ (by omega)

/-- `FrameOK()` in words: more than one byte, a header first, a terminator last (R106). -/
theorem frameOK_iff (s : State) :
    frameOK s = true ↔
      1 < s.rxcnt.toNat ∧ byteAt s.rxbuf 0 = 0xAA#8 ∧ byteAt s.rxbuf (s.rxcnt.toNat - 1) = 0xDD#8 := by
  simp [frameOK, and_assoc]

/-- Right after a terminator is appended, `FrameOK()` asks only for a header before it. -/
theorem frameOK_append_terminator {s : State} (h : s.rxcnt.toNat < 63) :
    frameOK (appendByte 0xDD#8 s) = true ↔ 0 < s.rxcnt.toNat ∧ byteAt s.rxbuf 0 = 0xAA#8 := by
  rw [frameOK_iff, appendByte_count _ h, appendByte_byteAt _ h, appendByte_byteAt _ h]
  constructor
  · rintro ⟨h1, h2, _⟩
    exact ⟨by omega, by simpa [show (0 : Nat) ≠ s.rxcnt.toNat by omega] using h2⟩
  · rintro ⟨h1, h2⟩
    refine ⟨by omega, ?_, ?_⟩
    · simpa [show (0 : Nat) ≠ s.rxcnt.toNat by omega] using h2
    · simp

theorem tick_outside {s : State} (h : s.receiving = false) : tick s = s := by
  simp [tick, h]

theorem tick_running {s : State} (h : s.receiving = true) (he : s.elapsed + 1#32 ≠ s.timeout) :
    tick s = s.withElapsed (s.elapsed + 1#32) := by
  simp [tick, h, he]

theorem tick_expiry {s : State} (h : s.receiving = true) (he : s.elapsed + 1#32 = s.timeout) :
    tick s = completeWith (if frameOK s then .frame else .timeout)
      (s.withElapsed (s.elapsed + 1#32)) := by
  simp [tick, h, he]

/-- While no stored byte is a terminator, `FrameOK()` is false: an attempt that expires has timed out
(R105). -/
theorem frameOK_of_no_terminator {s : State}
    (h : ∀ i, i < s.rxcnt.toNat → byteAt s.rxbuf i ≠ 0xDD#8) : frameOK s = false := by
  rw [Bool.eq_false_iff, Ne, frameOK_iff]
  rintro ⟨h1, _, h3⟩
  exact h _ (by omega) h3

end Sys2Proof.Machine
end

