-- ==== Sys2Proof/Laws/Exec.lean ====
section
/-! SUPPORT. Everything a host command can do, said once: the lemmas of the answering operations, one
case lemma for `exec`, and the lengths and bytes of a built frame. -/

namespace Sys2Proof.Machine

/-! ## Answering -/

theorem respond_eq (result : List Byte) (s : State) :
    respond result s = .next (s.withResponse (0x00#8 :: result)) := rfl

theorem raiseStatus_eq (c : Status) (s : State) :
    raiseStatus c s = .next (s.withResponse [c.code]) := rfl

theorem unlessReceiving_busy {act : State → Result} {s : State} (h : s.receiving = true) :
    unlessReceiving act s = .next (s.withResponse [0x01#8]) := by
  simp [unlessReceiving, h, raiseStatus_eq, Status.code]

theorem unlessReceiving_idle {act : State → Result} {s : State} (h : s.receiving = false) :
    unlessReceiving act s = act s := by
  simp [unlessReceiving, h]

/-- A guarded read answers one response, whatever the state. -/
theorem unlessReceiving_read (f : State → List Byte) (s : State) :
    ∃ r, r ≠ [] ∧ unlessReceiving (fun s => respond (f s) s) s = .next (s.withResponse r) := by
  cases h : s.receiving
  · exact ⟨0x00#8 :: f s, by simp, by rw [unlessReceiving_idle h, respond_eq]⟩
  · exact ⟨_, by simp, unlessReceiving_busy h⟩

theorem encodeFrame_range {c : Byte} {params : List Byte} (s : State) (h : 56 < params.length) :
    encodeFrame c params s = .next (s.withResponse [0x02#8]) := by
  simp [encodeFrame, h, raiseStatus_eq, Status.code]

theorem encodeFrame_ok {c : Byte} {params : List Byte} (s : State) (h : params.length ≤ 56) :
    encodeFrame c params s = .next ((recordFrame c params s).withResponse [0x00#8]) := by
  simp [encodeFrame, Nat.not_lt.mpr h, respond_eq]

/-! ## Each command over the shared operations -/

theorem exec_rxStart (t : BitVec 32) (s : State) :
    exec (.rxStart t) s = unlessReceiving (fun s => respond [] (startAttempt t s)) s := rfl

theorem exec_rxStatus (s : State) : exec .rxStatus s = respond [s.rxstat] s := rfl

theorem exec_rxCount (s : State) : exec .rxCount s = respond [s.rxcnt.setWidth 8] s := rfl

theorem exec_rxRead (k : Byte) (s : State) :
    exec (.rxRead k) s = unlessReceiving (fun s => respond [storedByte s k.toNat] s) s := rfl

theorem exec_rxElapsed (s : State) : exec .rxElapsed s = respond (bytes32 s.elapsed) s := rfl

theorem exec_validate (s : State) :
    exec .validate s =
      unlessReceiving (fun s => respond [(recordVerdict s).vstat] (recordVerdict s)) s := rfl

theorem exec_frHeader (s : State) :
    exec .frHeader s = unlessReceiving (fun s => respond [storedByte s 0] s) s := rfl

theorem exec_frType (s : State) :
    exec .frType s = unlessReceiving (fun s => respond [storedByte s 1] s) s := rfl

theorem exec_frCommand (s : State) :
    exec .frCommand s = unlessReceiving (fun s => respond [storedByte s 2] s) s := rfl

theorem exec_frPlen (s : State) :
    exec .frPlen s = unlessReceiving (fun s => respond (bytes16 (framePlen s)) s) s := rfl

theorem exec_frParam (k : Byte) (s : State) :
    exec (.frParam k) s = unlessReceiving
      (fun s =>
        respond [if k.toNat < (framePlen s).toNat then storedByte s (5 + k.toNat) else 0x00#8] s) s :=
  rfl

theorem exec_frChecksum (s : State) :
    exec .frChecksum s =
      unlessReceiving (fun s => respond [storedByte s (5 + (framePlen s).toNat)] s) s := rfl

theorem exec_frTerminator (s : State) :
    exec .frTerminator s =
      unlessReceiving (fun s => respond [storedByte s (6 + (framePlen s).toNat)] s) s := rfl

theorem exec_frChkcalc (s : State) :
    exec .frChkcalc s = unlessReceiving (fun s => respond [s.chkcalc] s) s := rfl

theorem exec_encBuild (c : Byte) (params : List Byte) (s : State) :
    exec (.encBuild c params) s = encodeFrame c params s := rfl

theorem exec_encGetModuleInfo (s : State) :
    exec .encGetModuleInfo s = encodeFrame 0x03#8 [0x00#8] s := rfl

theorem exec_encSinglePoll (s : State) : exec .encSinglePoll s = encodeFrame 0x22#8 [] s := rfl

theorem exec_encStartMultiPoll (s : State) :
    exec .encStartMultiPoll s = encodeFrame 0x27#8 [0x22#8, 0xFF#8, 0xFF#8] s := rfl

theorem exec_encStopMultiPoll (s : State) : exec .encStopMultiPoll s = encodeFrame 0x28#8 [] s := rfl

theorem exec_encLen (s : State) : exec .encLen s = respond [s.enclen.setWidth 8] s := rfl

theorem exec_encRead (k : Byte) (s : State) :
    exec (.encRead k) s = respond [builtByte s k.toNat] s := rfl

/-! ## One case lemma for `exec` -/

/-- What a command wrote before its response. -/
inductive CommandEffect (i : Instr) (s : State) : State → Prop
  | none : CommandEffect i s s
  | start (t : BitVec 32) (hi : i = .rxStart t) (hs : s.receiving = false) :
      CommandEffect i s (startAttempt t s)
  | verdict (hi : i = .validate) (hs : s.receiving = false) : CommandEffect i s (recordVerdict s)
  | frame (c : Byte) (params : List Byte) (hi : encodeCommand i = true) (hl : params.length ≤ 56) :
      CommandEffect i s (recordFrame c params s)

theorem encodeFrame_cases {i : Instr} (hi : encodeCommand i = true) (c : Byte) (params : List Byte)
    (s : State) :
    ∃ u r, r ≠ [] ∧ CommandEffect i s u ∧ encodeFrame c params s = .next (u.withResponse r) := by
  by_cases h : params.length ≤ 56
  · exact ⟨_, _, by simp, .frame c params hi h, encodeFrame_ok s h⟩
  · exact ⟨_, _, by simp, .none, encodeFrame_range s (by omega)⟩

theorem read_cases (i : Instr) (f : State → List Byte) (s : State)
    (h : exec i s = unlessReceiving (fun s => respond (f s) s) s) :
    ∃ u r, r ≠ [] ∧ CommandEffect i s u ∧ exec i s = .next (u.withResponse r) := by
  obtain ⟨r, hr, hx⟩ := unlessReceiving_read f s
  exact ⟨s, r, hr, .none, h.trans hx⟩

/-- RX_START and VALIDATE in a state with no attempt in progress. -/
theorem exec_rxStart_idle (t : BitVec 32) {s : State} (h : s.receiving = false) :
    exec (.rxStart t) s = .next ((startAttempt t s).withResponse [0x00#8]) := by
  rw [exec_rxStart, unlessReceiving_idle h, respond_eq]

theorem exec_validate_idle {s : State} (h : s.receiving = false) :
    exec .validate s =
      .next ((recordVerdict s).withResponse [0x00#8, vstatWrite s.vstat (judge s).1]) := by
  rw [exec_validate, unlessReceiving_idle h, respond_eq]
  simp

theorem exec_rxStart_busy (t : BitVec 32) {s : State} (h : s.receiving = true) :
    exec (.rxStart t) s = .next (s.withResponse [0x01#8]) := by
  rw [exec_rxStart, unlessReceiving_busy h]

theorem exec_validate_busy {s : State} (h : s.receiving = true) :
    exec .validate s = .next (s.withResponse [0x01#8]) := by
  rw [exec_validate, unlessReceiving_busy h]

/-- Every command writes nothing, or what RX_START, VALIDATE or a build writes, and then answers with
exactly one response, which is not empty. -/
theorem exec_cases (i : Instr) (s : State) :
    ∃ u r, r ≠ [] ∧ CommandEffect i s u ∧ exec i s = .next (u.withResponse r) := by
  cases i with
  | rxStart t =>
    cases h : s.receiving
    · exact ⟨_, _, List.cons_ne_nil _ _, .start t rfl h, exec_rxStart_idle t h⟩
    · exact ⟨_, _, List.cons_ne_nil _ _, .none, exec_rxStart_busy t h⟩
  | rxStatus => exact ⟨s, _, List.cons_ne_nil _ _, .none, respond_eq _ _⟩
  | rxCount => exact ⟨s, _, List.cons_ne_nil _ _, .none, respond_eq _ _⟩
  | rxRead k => exact read_cases _ _ s (exec_rxRead k s)
  | rxElapsed => exact ⟨s, _, List.cons_ne_nil _ _, .none, respond_eq _ _⟩
  | validate =>
    cases h : s.receiving
    · exact ⟨_, _, List.cons_ne_nil _ _, .verdict rfl h, exec_validate_idle h⟩
    · exact ⟨_, _, List.cons_ne_nil _ _, .none, exec_validate_busy h⟩
  | frHeader => exact read_cases _ _ s (exec_frHeader s)
  | frType => exact read_cases _ _ s (exec_frType s)
  | frCommand => exact read_cases _ _ s (exec_frCommand s)
  | frPlen => exact read_cases _ _ s (exec_frPlen s)
  | frParam k => exact read_cases _ _ s (exec_frParam k s)
  | frChecksum => exact read_cases _ _ s (exec_frChecksum s)
  | frTerminator => exact read_cases _ _ s (exec_frTerminator s)
  | frChkcalc => exact read_cases _ _ s (exec_frChkcalc s)
  | encBuild c params => exact encodeFrame_cases (i := .encBuild c params) rfl c params s
  | encGetModuleInfo => exact encodeFrame_cases (i := .encGetModuleInfo) rfl 0x03#8 [0x00#8] s
  | encSinglePoll => exact encodeFrame_cases (i := .encSinglePoll) rfl 0x22#8 [] s
  | encStartMultiPoll =>
    exact encodeFrame_cases (i := .encStartMultiPoll) rfl 0x27#8 [0x22#8, 0xFF#8, 0xFF#8] s
  | encStopMultiPoll => exact encodeFrame_cases (i := .encStopMultiPoll) rfl 0x28#8 [] s
  | encLen => exact ⟨s, _, List.cons_ne_nil _ _, .none, respond_eq _ _⟩
  | encRead k => exact ⟨s, _, List.cons_ne_nil _ _, .none, respond_eq _ _⟩

/-! ## Built frames -/

theorem buildFrame_length (c : Byte) (params : List Byte) :
    (buildFrame c params).length = 7 + params.length := by
  simp [buildFrame, bytes16]
  omega

theorem recordFrame_enclen (c : Byte) {params : List Byte} (s : State) (h : params.length ≤ 56) :
    (recordFrame c params s).enclen.toNat = 7 + params.length := by
  simp [BitVec.toNat_ofNat]
  omega

theorem recordFrame_byteAt {c : Byte} {params : List Byte} (s : State) (h : params.length ≤ 56)
    (i : Nat) :
    byteAt (recordFrame c params s).encbuf i = (buildFrame c params).getD i 0x00#8 := by
  rw [(recordFrame_fields c params s).2.2.2.2.2.2.2.1]
  exact byteAt_bufferOf_of_fits (by rw [buildFrame_length]; omega) i

end Sys2Proof.Machine
end

