-- ==== Sys2Proof/Laws/Step.lean ====
section
/-! SUPPORT. Everything a step can do: which turn it took and what that turn's agent did. -/

namespace Sys2Proof.Machine

theorem step_of_no_turn {s : State} (h : s.turns = []) : step s = .next s := by
  simp [step, h]

theorem step_of_turn {s : State} {turn : Turn} {rest : List Turn} (h : s.turns = turn :: rest) :
    step s = takeTurn turn (s.withTurns rest) := by
  simp [step, h]

theorem hostCommand_ok {bytes : List Byte} {i : Instr} (s : State) (h : decode bytes = .ok i) :
    hostCommand bytes s = exec i s := by
  simp [hostCommand, h]

theorem hostCommand_error {bytes : List Byte} {e : DecodeError} (s : State)
    (h : decode bytes = .error e) :
    hostCommand bytes s = .next (s.withResponse [(decodeStatus e).code]) := by
  simp [hostCommand, h, raiseStatus_eq]

/-- A host command writes what its instruction writes, or nothing if it is rejected, and answers with
one response, which is not empty. -/
theorem hostCommand_cases (bytes : List Byte) (s : State) :
    ∃ u r, r ≠ [] ∧ hostCommand bytes s = .next (u.withResponse r) ∧
      (u = s ∨ ∃ i, decode bytes = .ok i ∧ CommandEffect i s u) := by
  cases h : decode bytes with
  | ok i =>
    obtain ⟨u, r, hr, he, hx⟩ := exec_cases i s
    exact ⟨u, r, hr, by rw [hostCommand_ok s h, hx], .inr ⟨i, rfl, he⟩⟩
  | error e => exact ⟨s, _, by simp, hostCommand_error s h, .inl rfl⟩

theorem hostCommand_rxStatus (s : State) :
    hostCommand (encode .rxStatus) s = .next (s.withResponse [0x00#8, s.rxstat]) := rfl

/-- The host's turn in one of its forms. -/
theorem hostTurn_cases (s : State) :
    (s.script = [] ∧ hostTurn s = .next s) ∨
    (∃ bytes rest, s.script = .command bytes :: rest ∧
      hostTurn s = hostCommand bytes (s.withScript rest)) ∨
    (∃ bytes rest, s.script = .transmit bytes :: rest ∧
      hostTurn s = .next { s.withScript rest with sent := s.sent ++ bytes }) ∨
    (∃ rest, s.script = .awaitDone :: rest ∧
      hostTurn s = .next
        ((s.withScript (if s.done then rest else s.script)).withResponse [0x00#8, s.rxstat])) := by
  unfold hostTurn
  split
  · next h => exact .inl ⟨h, rfl⟩
  · next bytes rest h => exact .inr (.inl ⟨bytes, rest, h, rfl⟩)
  · next bytes rest h => exact .inr (.inr (.inl ⟨bytes, rest, h, rfl⟩))
  · next rest h =>
    refine .inr (.inr (.inr ⟨rest, h, ?_⟩))
    cases s.done <;> rfl

/-- No turn of any agent ends in a fault or a refusal. -/
theorem takeTurn_next (turn : Turn) (s : State) : ∃ t, takeTurn turn s = .next t := by
  cases turn with
  | host =>
    rcases hostTurn_cases s with ⟨_, h⟩ | ⟨bytes, rest, _, h⟩ | ⟨_, _, _, h⟩ | ⟨_, _, h⟩
    · exact ⟨_, h⟩
    · obtain ⟨u, r, _, hx, _⟩ := hostCommand_cases bytes (s.withScript rest)
      exact ⟨_, h.trans hx⟩
    · exact ⟨_, h⟩
    · exact ⟨_, h⟩
  | engine => exact ⟨_, rfl⟩
  | channel b => exact ⟨_, rfl⟩
  | time => exact ⟨_, rfl⟩
  | reset => exact ⟨_, rfl⟩

/-- The forms a step takes, one for each kind of turn and, on the host's turn, each kind of line. -/
inductive StepCase (s : State) : State → Prop
  | waits (h : s.turns = []) : StepCase s s
  | noLine (rest : List Turn) (h : s.turns = .host :: rest) (hs : s.script = []) :
      StepCase s (s.withTurns rest)
  | rejected (rest : List Turn) (h : s.turns = .host :: rest) (bytes : List Byte)
      (lines : List HostLine) (hs : s.script = .command bytes :: lines) (e : DecodeError)
      (hd : decode bytes = .error e) :
      StepCase s (((s.withTurns rest).withScript lines).withResponse [(decodeStatus e).code])
  | command (rest : List Turn) (h : s.turns = .host :: rest) (bytes : List Byte)
      (lines : List HostLine) (hs : s.script = .command bytes :: lines) (i : Instr)
      (hd : decode bytes = .ok i) (u : State) (r : List Byte) (hr : r ≠ [])
      (he : CommandEffect i ((s.withTurns rest).withScript lines) u) :
      StepCase s (u.withResponse r)
  | transmit (rest : List Turn) (h : s.turns = .host :: rest) (bytes : List Byte)
      (lines : List HostLine) (hs : s.script = .transmit bytes :: lines) :
      StepCase s { (s.withTurns rest).withScript lines with sent := s.sent ++ bytes }
  | await (rest : List Turn) (h : s.turns = .host :: rest) (lines : List HostLine)
      (hs : s.script = .awaitDone :: lines) :
      StepCase s (((s.withTurns rest).withScript (if s.done then lines else s.script)).withResponse
        [0x00#8, s.rxstat])
  | engine (rest : List Turn) (h : s.turns = .engine :: rest) :
      StepCase s (engineStep (s.withTurns rest))
  | channel (rest : List Turn) (b : Byte) (h : s.turns = .channel b :: rest) :
      StepCase s (chanAppend b (s.withTurns rest))
  | time (rest : List Turn) (h : s.turns = .time :: rest) : StepCase s (tick (s.withTurns rest))
  | reset (rest : List Turn) (h : s.turns = .reset :: rest) :
      StepCase s (resetBlock (s.withTurns rest))

/-- Every next state of a step is one of these forms: the one inversion lemma for `step`. -/
theorem step_cases {s t : State} (h : step s = .next t) : StepCase s t := by
  cases hturns : s.turns with
  | nil =>
    rw [step_of_no_turn hturns, Host.Outcome.next.injEq] at h
    exact h ▸ .waits hturns
  | cons turn rest =>
    rw [step_of_turn hturns] at h
    cases turn with
    | host =>
      simp only [takeTurn] at h
      rcases hostTurn_cases (s.withTurns rest) with ⟨hs, hx⟩ | ⟨bytes, lines, hs, hx⟩ |
        ⟨bytes, lines, hs, hx⟩ | ⟨lines, hs, hx⟩
      · rw [hx, Host.Outcome.next.injEq] at h
        exact h ▸ .noLine rest hturns hs
      · cases hd : decode bytes with
        | error e =>
          rw [hx, hostCommand_error _ hd, Host.Outcome.next.injEq] at h
          exact h ▸ .rejected rest hturns bytes lines hs e hd
        | ok i =>
          obtain ⟨u, r, hr, he, hi⟩ := exec_cases i ((s.withTurns rest).withScript lines)
          rw [hx, hostCommand_ok _ hd, hi, Host.Outcome.next.injEq] at h
          exact h ▸ .command rest hturns bytes lines hs i hd u r hr he
      · rw [hx, Host.Outcome.next.injEq] at h
        exact h ▸ .transmit rest hturns bytes lines hs
      · rw [hx, Host.Outcome.next.injEq] at h
        exact h ▸ .await rest hturns lines hs
    | engine =>
      rw [takeTurn, Host.Outcome.next.injEq] at h
      exact h ▸ .engine rest hturns
    | channel b =>
      rw [takeTurn, Host.Outcome.next.injEq] at h
      exact h ▸ .channel rest b hturns
    | time =>
      rw [takeTurn, Host.Outcome.next.injEq] at h
      exact h ▸ .time rest hturns
    | reset =>
      rw [takeTurn, Host.Outcome.next.injEq] at h
      exact h ▸ .reset rest hturns

/-- A step takes one turn, whatever it does. -/
theorem step_turns {s t : State} (hst : step s = .next t) : t.turns = s.turns.drop 1 := by
  cases step_cases hst with
  | waits h => simp [h]
  | command rest h bytes lines hs i hd u r _ he => cases he <;> simp [h]
  | engine rest h =>
    rcases engineStep_cases (s.withTurns rest) with h1 | ⟨b, q, _, _, ⟨_, h1⟩ | ⟨_, _, h1⟩ | ⟨_, _, h1⟩⟩ <;>
      simp [h1, h, terminatorStop]
  | time rest h =>
    simp only [tick]
    split
    · split <;> simp [h]
    · simp [h]
  | channel rest b h => simp [h]
  | _ rest h => simp [h]

/-- An append that had room puts its byte after those already stored. -/
theorem storedBytes_appendByte {s : State} (b : Byte) (h : s.rxcnt.toNat < 63) :
    storedBytes (appendByte b s) = storedBytes s ++ [b] := by
  unfold storedBytes
  rw [appendByte_count b h, List.range_succ, List.map_append]
  congr 1
  · refine List.map_congr_left fun k hk => ?_
    rw [appendByte_byteAt b h, if_neg (by simp at hk; omega)]
  · simp only [List.map_cons, List.map_nil, appendByte_byteAt b h, if_true]

/-- Runs compose. -/
theorem runsTo_add : ∀ (a b : Nat) {s t u : State}, runsTo a s t → runsTo b t u → runsTo (a + b) s u
  | 0, b, s, t, u, h, h2 => by
    cases h
    simpa using h2
  | a + 1, b, s, t, u, ⟨w, h, h1⟩, h2 => by
    rw [show a + 1 + b = (a + b) + 1 by omega]
    exact ⟨w, h, runsTo_add a b h1 h2⟩

end Sys2Proof.Machine
end

