-- ==== Sys2Proof/Laws/Invariants.lean ====
section
/-! SUPPORT. The invariants depend on the block's registers alone: a step that leaves these as they are
keeps them. -/

namespace Sys2Proof.Machine

theorem State.Inv.congr {s t : State} (hi : s.Inv) (hr : SameReceiver s t) (he : SameEncoder s t) :
    t.Inv := by
  obtain ⟨h1, h2, h3, h4, h5, h6, h7⟩ := hr
  obtain ⟨h8, h9⟩ := he
  have hrec : t.receiving = s.receiving := by rw [receiving_eq, receiving_eq, h3]
  constructor <;> simp only [h1, h2, h3, h4, h5, h6, h8, h9, hrec]
  exacts [hi.rxcnt_le, hi.rxbuf_zero, hi.elapsed_le, hi.elapsed_lt, hi.no_terminator, hi.frame,
    hi.badframe, hi.timed_out, hi.overflowed, hi.enclen_range, hi.encbuf_zero, hi.rxstat_legal,
    hi.vstat_legal]

/-- VALIDATE reads RXBUF and RXCNT and nothing else (R140). -/
theorem judge_congr {s t : State} (hb : t.rxbuf = s.rxbuf) (hc : t.rxcnt = s.rxcnt) :
    judge t = judge s := by
  cases s; cases t
  simp only at hb hc
  subst hb hc
  rfl

theorem State.VerdictCurrent.congr {s t : State} (hv : s.VerdictCurrent) (hr : SameReceiver s t) :
    t.VerdictCurrent := by
  obtain ⟨h1, h2, h3, _, _, h6, h7⟩ := hr
  have hrec : t.receiving = s.receiving := by rw [receiving_eq, receiving_eq, h3]
  constructor <;> simp only [h6, h7, hrec, judge_congr h1 h2]
  exacts [hv.cleared, hv.current, hv.unchecked]

/-- A legal RXSTAT has its reserved bits 0 (R13). -/
theorem rxstat_reserved_of_legal {r : Byte}
    (h : r ∈ [0x00#8, 0x01#8, 0x12#8, 0x22#8, 0x32#8, 0x42#8]) : r &&& 0x8C#8 = 0x00#8 := by
  revert h; revert r; decide

/-- While an attempt runs a legal RXSTAT is 0x01 (R109). -/
theorem rxstat_of_receiving {s : State} (hi : s.Inv) (hr : s.receiving = true) : s.rxstat = 0x01#8 := by
  have key : ∀ r : Byte, r ∈ [0x00#8, 0x01#8, 0x12#8, 0x22#8, 0x32#8, 0x42#8] →
      (rxstatState r == 1#2) = true → r = 0x01#8 := by decide
  exact key _ hi.rxstat_legal hr

end Sys2Proof.Machine
end

