-- ==== Sys2Proof/Laws/PerInstr.lean ====
section
/-! SUPPORT. Statements made once per instruction. -/

namespace Sys2Proof.Laws

/-- The encoding of a command starts with its row's opcode byte, which names no other row, and has the
length R68 and R70 give the row. -/
def EncodeShape.Statement (i : Instr) : Prop :=
  (encode i).head? = some i.opcode.code ∧ Opcode.ofByte i.opcode.code = some i.opcode ∧
    (encode i).length =
      i.opcode.commandLength (match i with | .encBuild _ params => params.length | _ => 0)

theorem encodeShape (i : Instr) : EncodeShape.Statement i :=
  ⟨rfl, Opcode.ofByte_code _, encode_length_of_opcode i⟩

theorem EncodeShape.rxStart (t : BitVec 32) :
    EncodeShape.Statement (.rxStart t) := encodeShape _

theorem EncodeShape.rxStatus :
    EncodeShape.Statement .rxStatus := encodeShape _

theorem EncodeShape.rxCount :
    EncodeShape.Statement .rxCount := encodeShape _

theorem EncodeShape.rxRead (i : Byte) :
    EncodeShape.Statement (.rxRead i) := encodeShape _

theorem EncodeShape.rxElapsed :
    EncodeShape.Statement .rxElapsed := encodeShape _

theorem EncodeShape.validate :
    EncodeShape.Statement .validate := encodeShape _

theorem EncodeShape.frHeader :
    EncodeShape.Statement .frHeader := encodeShape _

theorem EncodeShape.frType :
    EncodeShape.Statement .frType := encodeShape _

theorem EncodeShape.frCommand :
    EncodeShape.Statement .frCommand := encodeShape _

theorem EncodeShape.frPlen :
    EncodeShape.Statement .frPlen := encodeShape _

theorem EncodeShape.frParam (i : Byte) :
    EncodeShape.Statement (.frParam i) := encodeShape _

theorem EncodeShape.frChecksum :
    EncodeShape.Statement .frChecksum := encodeShape _

theorem EncodeShape.frTerminator :
    EncodeShape.Statement .frTerminator := encodeShape _

theorem EncodeShape.frChkcalc :
    EncodeShape.Statement .frChkcalc := encodeShape _

theorem EncodeShape.encBuild (c : Byte) (params : List Byte) :
    EncodeShape.Statement (.encBuild c params) := encodeShape _

theorem EncodeShape.encGetModuleInfo :
    EncodeShape.Statement .encGetModuleInfo := encodeShape _

theorem EncodeShape.encSinglePoll :
    EncodeShape.Statement .encSinglePoll := encodeShape _

theorem EncodeShape.encStartMultiPoll :
    EncodeShape.Statement .encStartMultiPoll := encodeShape _

theorem EncodeShape.encStopMultiPoll :
    EncodeShape.Statement .encStopMultiPoll := encodeShape _

theorem EncodeShape.encLen :
    EncodeShape.Statement .encLen := encodeShape _

theorem EncodeShape.encRead (i : Byte) :
    EncodeShape.Statement (.encRead i) := encodeShape _

end Sys2Proof.Laws
end

