-- ==== Sys2Proof/Tests/Slice0.lean ====
section
/-! SUPPORT. The tests. Expected results come from the opcode map of R68 and from the vectors of
`95_test_vectors.md`, named in each docstring; the witnesses of the statements' hypotheses follow. -/

namespace Sys2Proof.Tests

open Sys2Proof Sys2Proof.Machine

/-! ## Small states -/

/-- What a projection reads in the next state. -/
def after {α : Type} (r : Result) (f : State → α) : Option α :=
  match r with
  | .next t => some (f t)
  | .fault _ => none
  | .refused _ => none

/-- The last response received. -/
def answer (r : Result) : Option (List Byte) := (after r (·.responses.head?)).join

/-- A completed attempt whose buffer holds `bytes`. -/
def stored (bytes : List Byte) : State := { State.reset.withStored bytes with rxstat := 0x12#8 }

/-- An attempt in progress with a window of 3 ticks, `bytes` stored and `q` in the channel. -/
def running (bytes q : List Byte) (turns : List Turn) : State :=
  { State.reset.withStored bytes with
    rxstat := 0x01#8, timeout := 3#32, channel := q, turns := turns }

/-- The host next, with one command. -/
def hostNext (bytes : List Byte) (s : State) : State :=
  { s with turns := [.host], script := [.command bytes] }

/-- The frame EX of `95_test_vectors.md`. -/
def frameEX : List Byte :=
  [0xAA#8, 0x02#8, 0x22#8, 0x00#8, 0x11#8, 0xC7#8, 0x30#8, 0x00#8, 0xE2#8, 0x80#8, 0x68#8, 0x90#8] ++
  [0x00#8, 0x00#8, 0x50#8, 0x0E#8, 0x88#8, 0xC6#8, 0xA4#8, 0xA7#8, 0x11#8, 0x9B#8, 0x29#8, 0xDD#8]

/-- The shortest frame, `AA 00 22 00 00 22 DD`. -/
def framePoll : List Byte := [0xAA#8, 0x00#8, 0x22#8, 0x00#8, 0x00#8, 0x22#8, 0xDD#8]

/-! ## Well-formedness -/

/-- One ENC_BUILD of `n` parameter bytes. -/
theorem wellFormed_of_length (n : Nat) :
    (Instr.encBuild 0x22#8 (List.replicate n 0x00#8)).wellFormed = decide (n ≤ 65535) := by
  simp [Instr.wellFormed]

/-- A list one longer than its 16-bit count can say is refused. -/
theorem test_wellFormed_refuses_a_list_too_long :
    (Instr.encBuild 0x22#8 (List.replicate 65536 0x00#8)).wellFormed = false :=
  (wellFormed_of_length 65536).trans (by decide)

/-- The longest list a count can say is accepted. -/
theorem test_wellFormed_accepts_the_longest_list :
    (Instr.encBuild 0x22#8 (List.replicate 65535 0x00#8)).wellFormed = true :=
  (wellFormed_of_length 65535).trans (by decide)

/-! ## Decoding: words written out from R68 -/

theorem test_decode_receiver_words :
    decode [0x10#8, 0x12#8, 0x34#8, 0x56#8, 0x78#8] = .ok (.rxStart 0x12345678#32) ∧
    decode [0x11#8] = .ok .rxStatus ∧ decode [0x12#8] = .ok .rxCount ∧
    decode [0x13#8, 0x16#8] = .ok (.rxRead 22#8) ∧ decode [0x14#8] = .ok .rxElapsed := by decide

theorem test_decode_validator_words :
    decode [0x20#8] = .ok .validate ∧ decode [0x21#8] = .ok .frHeader ∧
    decode [0x22#8] = .ok .frType ∧ decode [0x23#8] = .ok .frCommand ∧
    decode [0x24#8] = .ok .frPlen ∧ decode [0x25#8, 0x0E#8] = .ok (.frParam 14#8) ∧
    decode [0x26#8] = .ok .frChecksum ∧ decode [0x27#8] = .ok .frTerminator ∧
    decode [0x28#8] = .ok .frChkcalc := by decide

theorem test_decode_encoder_words :
    decode [0x30#8, 0xFF#8, 0x00#8, 0x02#8, 0x01#8, 0x02#8] = .ok (.encBuild 0xFF#8 [0x01#8, 0x02#8]) ∧
    decode [0x31#8] = .ok .encGetModuleInfo ∧ decode [0x32#8] = .ok .encSinglePoll ∧
    decode [0x33#8] = .ok .encStartMultiPoll ∧ decode [0x34#8] = .ok .encStopMultiPoll ∧
    decode [0x35#8] = .ok .encLen ∧ decode [0x36#8, 0x09#8] = .ok (.encRead 9#8) := by decide

/-- R212's order, and the values of R69. V-ST-1 to V-ST-5, V-EN-10, V-EN-11. -/
theorem test_decode_rejections :
    decode [] = .error .emptyCommand ∧ decode [0x30#8, 0x22#8] = .error .shortBuild ∧
    decode [0x00#8] = .error .illegalOpcode ∧ decode [0x15#8] = .error .illegalOpcode ∧
    decode [0xFF#8, 0x01#8, 0x02#8] = .error .illegalOpcode ∧
    decode [0x11#8, 0x00#8] = .error .wrongLength ∧
    decode [0x10#8, 0x00#8, 0x00#8, 0x64#8] = .error .wrongLength ∧
    decode [0x30#8, 0x22#8, 0x01#8, 0x00#8] = .error .wrongLength := by decide

/-- Table words: the first byte is bits 7:0, and operand bytes the table gives no bits are 0. -/
theorem test_table_words :
    decodeTableWord 8 0x10 = some (.rxStart 0#32) ∧
    decodeTableWord 40 0x6400000010 = some (.rxStart 100#32) ∧
    decodeTableWord 16 0x1613 = some (.rxRead 22#8) ∧
    decodeTableWord 8 0x30 = some (.encBuild 0x00#8 []) ∧
    decodeTableWord 8 0x15 = none := by decide

/-- The step after `withFetchWord` is the table word's command, from reset. V-RXC-1. -/
theorem test_withFetchWord_runs_the_word :
    answer (step (State.reset.withFetchWord 8 0x11)) = some [0x00#8, 0x00#8] ∧
    after (step (State.reset.withFetchWord 8 0x32)) (·.enclen) = some 7#7 := by decide

/-! ## The receiver -/

/-- RX_START 100, then a window of 0. V-RX-7. -/
theorem test_rxStart :
    after (exec (.rxStart 100#32) (stored framePoll)) (fun t => (t.rxstat, t.timeout, t.rxcnt)) =
      some (0x01#8, 100#32, 0#7) ∧
    after (exec (.rxStart 0#32) State.reset) (·.rxstat) = some 0x22#8 := by decide

/-- V-RXC-7: refused while an attempt runs. -/
theorem test_rxStart_busy : answer (exec (.rxStart 1#32) (running [] [] [])) = some [0x01#8] := by decide

/-- V-RXC-10. -/
theorem test_rxStatus : answer (exec .rxStatus (running [] [] [])) = some [0x00#8, 0x01#8] := by decide

/-- V-RXC-2. -/
theorem test_rxCount : answer (exec .rxCount (stored frameEX)) = some [0x00#8, 0x18#8] := by decide

/-- V-RXC-3 and V-RXC-4. -/
theorem test_rxRead :
    answer (exec (.rxRead 22#8) (stored frameEX)) = some [0x00#8, 0x29#8] ∧
    answer (exec (.rxRead 24#8) (stored frameEX)) = some [0x00#8, 0x00#8] := by decide

/-- V-RXC-6: the most significant byte first. -/
theorem test_rxElapsed :
    answer (exec .rxElapsed (State.reset.withElapsed 5#32)) =
      some [0x00#8, 0x00#8, 0x00#8, 0x00#8, 0x05#8] := by decide

/-- The last byte of `AA DD` (V-RX-3) and of `DD` (V-RX-4). -/
theorem test_engine_terminator :
    after (step (running [0xAA#8] [0xDD#8, 0x01#8] [.engine]))
      (fun t => (t.rxstat, t.rxcnt, t.channel)) = some (0x12#8, 2#7, [0x01#8]) ∧
    after (step (running [] [0xDD#8] [.engine])) (fun t => (t.rxstat, t.rxcnt)) =
      some (0x42#8, 1#7) := by decide

/-- A terminator as the 64th byte overflows (V-RX-13). -/
theorem test_engine_overflow :
    after (step (running (List.replicate 63 0x01#8) [0xDD#8, 0xAA#8] [.engine]))
      (fun t => (t.rxstat, t.rxcnt, t.channel)) = some (0x32#8, 0#7, []) := by decide

/-- The third tick of a window of 3 (V-RX-9), and the second. -/
theorem test_tick :
    after (step { running [] [] [.time] with elapsed := 2#32 }) (fun t => (t.rxstat, t.elapsed)) =
      some (0x22#8, 3#32) ∧
    after (step { running [] [] [.time] with elapsed := 1#32 }) (fun t => (t.rxstat, t.elapsed)) =
      some (0x01#8, 2#32) := by decide

/-! ## The validator -/

/-- V-VA-1 and V-VA-12: valid, and a wrong checksum. -/
theorem test_validate :
    after (exec .validate (stored frameEX)) (fun t => (t.vstat, t.chkcalc)) = some (0xC0#8, 0x29#8) ∧
    after (exec .validate (stored [0xAA#8, 0x00#8, 0x22#8, 0x00#8, 0x00#8, 0x23#8, 0xDD#8]))
      (fun t => (t.vstat, t.chkcalc)) = some (0x45#8, 0x22#8) := by decide

/-- V-VA-4, V-VA-6, V-VA-8 and V-VA-10: the other four reasons. -/
theorem test_validate_reasons :
    after (exec .validate State.reset) (·.vstat) = some 0x41#8 ∧
    after (exec .validate (stored [0xAB#8, 0x00#8, 0x22#8, 0x00#8, 0x00#8, 0x22#8, 0xDD#8]))
      (·.vstat) = some 0x42#8 ∧
    after (exec .validate (stored [0xAA#8, 0x00#8, 0x22#8, 0xFF#8, 0xFF#8, 0x05#8, 0x29#8, 0xDD#8]))
      (·.vstat) = some 0x43#8 ∧
    after (exec .validate (stored [0xAA#8, 0x00#8, 0x22#8, 0x00#8, 0x00#8, 0x22#8, 0x00#8]))
      (·.vstat) = some 0x44#8 := by decide

/-- V-VA-1. -/
theorem test_header_type_command :
    answer (exec .frHeader (stored frameEX)) = some [0x00#8, 0xAA#8] ∧
    answer (exec .frType (stored frameEX)) = some [0x00#8, 0x02#8] ∧
    answer (exec .frCommand (stored frameEX)) = some [0x00#8, 0x22#8] := by decide

/-- V-VA-1 and V-VA-4. -/
theorem test_frPlen :
    answer (exec .frPlen (stored frameEX)) = some [0x00#8, 0x00#8, 0x11#8] ∧
    answer (exec .frPlen State.reset) = some [0x00#8, 0x00#8, 0x00#8] := by decide

/-- V-VA-1: the last parameter, and the first index beyond it. -/
theorem test_frParam :
    answer (exec (.frParam 16#8) (stored frameEX)) = some [0x00#8, 0x9B#8] ∧
    answer (exec (.frParam 17#8) (stored frameEX)) = some [0x00#8, 0x00#8] := by decide

/-- V-VA-7: the offsets follow the declared length. -/
theorem test_checksum_terminator :
    answer (exec .frChecksum
      (stored [0xAA#8, 0x00#8, 0x22#8, 0x00#8, 0x02#8, 0x05#8, 0x29#8, 0xDD#8])) =
        some [0x00#8, 0xDD#8] ∧
    answer (exec .frTerminator
      (stored [0xAA#8, 0x00#8, 0x22#8, 0x00#8, 0x02#8, 0x05#8, 0x29#8, 0xDD#8])) =
        some [0x00#8, 0x00#8] := by decide

/-- V-VA-3. -/
theorem test_frChkcalc :
    answer (exec .frChkcalc { stored framePoll with chkcalc := 0x16#8 }) = some [0x00#8, 0x16#8] := by
  decide

/-! ## The encoder -/

/-- V-EN-6: the checksum wraps twice. -/
theorem test_encBuild :
    after (exec (.encBuild 0xFF#8 [0xFF#8, 0xFF#8]) State.reset) (fun t => (t.enclen, encodedBytes t)) =
      some (9#7,
        [0xAA#8, 0x00#8, 0xFF#8, 0x00#8, 0x02#8, 0xFF#8, 0xFF#8, 0xFF#8, 0xDD#8]) := by decide

/-- V-EN-9: 57 parameters are out of range and write nothing. -/
theorem test_encBuild_range :
    after (exec (.encBuild 0x10#8 (List.replicate 57 0x00#8)) State.reset)
      (fun t => (t.enclen, t.responses)) = some (0#7, [[0x02#8]]) := by decide

/-- V-EN-1. -/
theorem test_encGetModuleInfo :
    after (exec .encGetModuleInfo State.reset) encodedBytes =
      some [0xAA#8, 0x00#8, 0x03#8, 0x00#8, 0x01#8, 0x00#8, 0x04#8, 0xDD#8] := by decide

/-- V-EN-2. -/
theorem test_encSinglePoll : after (exec .encSinglePoll State.reset) encodedBytes = some framePoll := by
  decide

/-- V-EN-3. -/
theorem test_encStartMultiPoll :
    after (exec .encStartMultiPoll State.reset) encodedBytes =
      some [0xAA#8, 0x00#8, 0x27#8, 0x00#8, 0x03#8, 0x22#8, 0xFF#8, 0xFF#8, 0x4A#8, 0xDD#8] := by decide

/-- V-EN-4. -/
theorem test_encStopMultiPoll :
    after (exec .encStopMultiPoll State.reset) encodedBytes =
      some [0xAA#8, 0x00#8, 0x28#8, 0x00#8, 0x00#8, 0x28#8, 0xDD#8] := by decide

/-- V-EN-12. -/
theorem test_encLen_encRead :
    answer (exec .encLen (recordFrame 0x22#8 [] State.reset)) = some [0x00#8, 0x07#8] ∧
    answer (exec (.encRead 6#8) (recordFrame 0x22#8 [] State.reset)) = some [0x00#8, 0xDD#8] ∧
    answer (exec (.encRead 7#8) (recordFrame 0x22#8 [] State.reset)) = some [0x00#8, 0x00#8] := by decide

/-! ## Status codes, reset, the host's text -/

/-- V-ST-6 and V-ST-7: FORMAT before BUSY, and the encoder never BUSY. -/
theorem test_priorities :
    answer (hostCommand [0x20#8, 0x00#8] (running [] [] [])) = some [0x04#8] ∧
    answer (hostCommand ([0x30#8, 0x10#8, 0x00#8, 0x39#8] ++ List.replicate 57 0x00#8)
      (running [] [] [])) = some [0x02#8] := by decide

/-- V-RS-2: a reset abandons the attempt and leaves the channel. -/
theorem test_reset :
    after (step (running (frameEX.take 5) [0x11#8, 0xC7#8] [.reset]))
      (fun t => (t.rxstat, t.rxcnt, t.channel)) = some (0x00#8, 0#7, [0x11#8, 0xC7#8]) := by decide

/-- The line of program P3 and a hex operand (R80, R81). -/
theorem test_assemble :
    assembleLine "RX_START 100 ; a comment" =
      .ok [.command [0x10#8, 0x00#8, 0x00#8, 0x00#8, 0x64#8]] ∧
    assembleLine "ENC_BUILD 0x22, [1 0xFF]" =
      .ok [.command [0x30#8, 0x22#8, 0x00#8, 0x02#8, 0x01#8, 0xFF#8]] := by decide

/-- Lines the assembler refuses, by reason. -/
theorem test_assemble_refuses :
    assembleLine "RX_STOP" = .error .unknownMnemonic ∧ assembleLine "VALIDATE 1" = .error .operandForm ∧
    assembleLine "RX_READ 256" = .error .operandTooLarge := by decide

/-- A program's lines as turns and host lines (R9). -/
theorem test_loadScript :
    (loadScript 1 [.append [0xAA#8], .host .awaitDone, .ticks 2] State.reset).turns =
      [.channel 0xAA#8, .engine, .host, .engine, .time, .time, .engine] ∧
    (loadScript 1 [.append [0xAA#8], .host .awaitDone, .ticks 2] State.reset).script =
      [.awaitDone] := by decide

/-! ## Witnesses: states and operands that meet the hypotheses of each statement -/

/-- DecodeOfEncodeIsTheCommand. -/
theorem witness_wellFormed : (Instr.encBuild 0x22#8 [0x01#8]).wellFormed = true := by decide

/-- EachCommandHasOneSpelling. -/
theorem witness_decode : decode [0x30#8, 0x22#8, 0x00#8, 0x00#8] = .ok (.encBuild 0x22#8 []) := by decide

/-- UnlistedOpcodesAnswerIllegal: the ends of every range of both clauses, and no byte under both. -/
theorem witness_unlisted :
    (∀ op ∈ [0x00#8, 0x0F#8, 0x15#8, 0x1F#8, 0x29#8, 0x2F#8, 0x37#8, 0xFF#8],
      op.toNat ≤ 0x0F ∨ (0x15 ≤ op.toNat ∧ op.toNat ≤ 0x1F) ∨ (0x29 ≤ op.toNat ∧ op.toNat ≤ 0x2F) ∨
        0x37 ≤ op.toNat) ∧
    (∀ op ∈ [0x10#8, 0x14#8, 0x20#8, 0x28#8, 0x30#8, 0x36#8],
      (0x10 ≤ op.toNat ∧ op.toNat ≤ 0x14) ∨ (0x20 ≤ op.toNat ∧ op.toNat ≤ 0x28) ∨
        (0x30 ≤ op.toNat ∧ op.toNat ≤ 0x36)) ∧
    (∀ op : Byte, assignedOpcode op = false ↔
      op.toNat ≤ 0x0F ∨ (0x15 ≤ op.toNat ∧ op.toNat ≤ 0x1F) ∨ (0x29 ≤ op.toNat ∧ op.toNat ≤ 0x2F) ∨
        0x37 ≤ op.toNat) := by decide

/-- WrongLengthsAnswerFormat, and the TwoByteCommand and OneByteCommand forms: 2 operand bytes of
ENC_BUILD, one too few, right and too many. -/
theorem witness_lengths :
    [0x22#8, 0x00#8].length < 3 ∧ assignedOpcode 0x10#8 = true ∧
    [0x00#8, 0x00#8, 0x64#8].length ≠ operandLength 0x10#8 [0x00#8, 0x00#8, 0x64#8] ∧
    [0x00#8, 0x00#8, 0x00#8, 0x64#8].length = operandLength 0x10#8 [0x00#8, 0x00#8, 0x00#8, 0x64#8] ∧
    assignedOpcode 0x30#8 = true ∧
    [0x22#8, 0x00#8, 0x01#8].length ≠ operandLength 0x30#8 [0x22#8, 0x00#8, 0x01#8] ∧
    [0x22#8, 0x00#8, 0x01#8, 0x05#8].length =
      operandLength 0x30#8 [0x22#8, 0x00#8, 0x01#8, 0x05#8] ∧
    ([] : List Byte).length ≠ 1 ∧ [0x00#8].length ≠ 0 ∧ [0x00#8, 0x00#8].length ≠ 1 := by decide

/-- StatusFollowsThePriorityOrder: each status, at the places of R212's order. V-ST-1 to V-ST-7. -/
theorem witness_status :
    expectedStatus [] true = 0x04#8 ∧ expectedStatus [0x30#8, 0x22#8] false = 0x04#8 ∧
    expectedStatus [0xFF#8, 0x01#8, 0x02#8] false = 0x03#8 ∧
    expectedStatus [0x20#8, 0x00#8] true = 0x04#8 ∧ expectedStatus [0x20#8] true = 0x01#8 ∧
    expectedStatus ([0x30#8, 0x10#8, 0x00#8, 0x39#8] ++ List.replicate 57 0x00#8) true = 0x02#8 ∧
    expectedStatus ([0x30#8, 0x10#8, 0x00#8, 0x38#8] ++ List.replicate 56 0x00#8) true = 0x00#8 ∧
    expectedStatus [0x20#8] false = 0x00#8 := by decide

/-- StepPerformsTheDecodedCommand, each clause. -/
theorem witness_step_performs :
    (hostNext [0x20#8] State.reset).turns = [.host] ∧
    (hostNext [0x20#8] State.reset).script = [.command [0x20#8]] ∧ decode [0x20#8] = .ok .validate ∧
    (hostNext [0x00#8] State.reset).script = [.command [0x00#8]] ∧
    decode [0x00#8] = .error .illegalOpcode ∧ decode [] = .error .emptyCommand ∧
    decodeTableWord 8 0x20 = some .validate := by decide

/-- The block idle, complete and receiving: RxStartStartsAnAttempt, RxReadReadsTheBuffer, the accessors,
BusyWhileReceiving, ValidateTwiceGivesTheSameResult. -/
theorem witness_receiving :
    State.reset.receiving = false ∧ (stored frameEX).receiving = false ∧
    (running [] [] []).receiving = true ∧ [0x00#8, 0x00#8, 0x64#8].length ≠ 4 := by decide

/-- RxReadReadsTheBuffer: the last stored index, the first beyond, and the first outside the array. -/
theorem witness_indices :
    (23#8 : Byte).toNat < (stored frameEX).rxcnt.toNat ∧
    (stored frameEX).rxcnt.toNat ≤ (24#8 : Byte).toNat ∧ 64 ≤ (64#8 : Byte).toNat := by decide

/-- A state in which an attempt runs meets the invariants. -/
theorem witness_inv_running : (running [0xAA#8, 0x02#8] [0xDD#8] [.time, .time, .time]).Inv := by
  constructor <;> decide

/-- StatusCountAndElapsedRead: an attempt that overflowed, and one that timed out. -/
theorem witness_inv_overflow :
    State.Inv { State.reset with rxstat := 0x32#8, timeout := 3#32 } ∧ rxstatRes 0x32#8 = 3#3 :=
  ⟨by constructor <;> decide, by decide⟩

theorem witness_inv_timeout :
    State.Inv { State.reset with rxstat := 0x22#8, timeout := 3#32, elapsed := 3#32 } ∧
      rxstatRes 0x22#8 = 2#3 :=
  ⟨by constructor <;> decide, by decide⟩

/-- EngineStoresOneByte and TerminatorEndsTheAttempt: the first byte and the 63rd. -/
theorem witness_engine_has_room :
    (running [] [0xAA#8] [.engine]).rxcnt.toNat < 63 ∧
    (running (List.replicate 62 0x01#8) [0xDD#8] [.engine]).rxcnt.toNat < 63 ∧
    (running (List.replicate 62 0x01#8) [0xDD#8] [.engine]).receiving = true ∧
    (running (List.replicate 62 0x01#8) [0xDD#8] [.engine]).channel = [0xDD#8] ∧
    (running (List.replicate 62 0x01#8) [0xDD#8] [.engine]).turns = [.engine] := by decide

/-- SixtyFourthByteOverflows. -/
theorem witness_engine_full :
    63 ≤ (running (List.replicate 63 0x01#8) [0x00#8] [.engine]).rxcnt.toNat ∧
    (running (List.replicate 63 0x01#8) [0x00#8] [.engine]).receiving = true ∧
    (running (List.replicate 63 0x01#8) [0x00#8] [.engine]).channel = [0x00#8] := by decide

/-- EngineWaitsUnlessEnabled: no attempt, and an empty channel. -/
theorem witness_engine_waits :
    ({ stored [] with turns := [.engine], channel := [0xAA#8] } : State).receiving = false ∧
    chanAvail (running [] [] [.engine]) = 0 ∧ (running [] [] [.engine]).turns = [.engine] := by decide

/-- TickAdvancesTheTimer: the three clauses. -/
theorem witness_tick :
    (running [] [] [.time]).elapsed + 1#32 ≠ (running [] [] [.time]).timeout ∧
    ({ running [] [] [.time] with elapsed := 2#32 } : State).elapsed + 1#32 = 3#32 ∧
    ({ stored [] with turns := [.time] } : State).receiving = false ∧
    (running [] [] [.time]).turns = [.time] := by decide

/-- ExpiryIsATimeout. -/
theorem witness_tick_inv : State.Inv { running [0xAA#8] [] [.time] with elapsed := 2#32 } := by
  constructor <;> decide

/-- ChannelAppendsToTheTail. -/
theorem witness_channel :
    ({ State.reset with turns := [.channel 0xAA#8] } : State).turns = [.channel 0xAA#8] := by decide

/-- AttemptTakesThroughTheFirstTerminator: no byte, one and 62 before the terminator. -/
theorem witness_attempt :
    ∀ pre ∈ [[], [0xAA#8], List.replicate 62 0x01#8],
      let s := running [] (pre ++ [0xDD#8, 0x05#8]) (List.replicate (pre.length + 1) .engine)
      s.receiving = true ∧ s.rxcnt = 0#7 ∧ s.channel = pre ++ 0xDD#8 :: [0x05#8] ∧ 0xDD#8 ∉ pre ∧
        pre.length < 63 ∧ s.turns = List.replicate (pre.length + 1) .engine ++ [] := by decide

/-- OverflowLosesTheWholeQueue: 63 zeros, a terminator, and a frame behind them. -/
theorem witness_overflow_run :
    let s := running [] (List.replicate 63 0x00#8 ++ 0xDD#8 :: framePoll) (List.replicate 64 .engine)
    s.receiving = true ∧ s.rxcnt = 0#7 ∧ s.channel = List.replicate 63 0x00#8 ++ 0xDD#8 :: framePoll ∧
      0xDD#8 ∉ List.replicate 63 0x00#8 ∧ (List.replicate 63 0x00#8).length = 63 ∧
      s.turns = List.replicate 64 .engine ++ [] := by decide

theorem witness_overflow_run_inv :
    (running [] (List.replicate 63 0x00#8 ++ 0xDD#8 :: framePoll) (List.replicate 64 .engine)).Inv := by
  constructor <;> decide

/-- AttemptsCompleteWithinTheirWindow: three ticks for a window of three, and no reset. -/
theorem witness_window :
    let s := running [0xAA#8, 0x02#8] [0xDD#8] [.time, .time, .time]
    s.receiving = true ∧ s.timeout.toNat - s.elapsed.toNat ≤ s.turns.count .time ∧
        .reset ∉ s.turns := by decide

/-- OnlyTheseStepsEndOrBeginAnAttempt: an expiry, a terminator, a reset, and an RX_START. -/
theorem witness_ends_and_begins :
    after (step { running [] [] [.time] with elapsed := 2#32 }) (·.receiving) = some false ∧
    after (step (running [] [0xDD#8] [.engine])) (·.receiving) = some false ∧
    after (step (running [] [] [.reset])) (·.receiving) = some false ∧
    after (step (hostNext [0x10#8, 0x00#8, 0x00#8, 0x00#8, 0x01#8] State.reset)) (·.receiving) =
      some true := by decide

/-- The six clauses of ValidateMakesItsChecksInOrder, each met by one stored frame and no other. -/
theorem witness_validate_clauses :
    (stored (framePoll.take 6)).rxcnt.toNat < 7 ∧
    (7 ≤ (stored (0xAB#8 :: framePoll.tail)).rxcnt.toNat ∧
      byteAt (stored (0xAB#8 :: framePoll.tail)).rxbuf 0 ≠ 0xAA#8) ∧
    (let s := stored (frameEX.take 10);
      7 ≤ s.rxcnt.toNat ∧ byteAt s.rxbuf 0 = 0xAA#8 ∧ 7 + storedPlen s ≠ s.rxcnt.toNat) ∧
    (let s := stored [0xAA#8, 0x00#8, 0x22#8, 0x00#8, 0x00#8, 0x22#8, 0x00#8];
      7 ≤ s.rxcnt.toNat ∧ byteAt s.rxbuf 0 = 0xAA#8 ∧ 7 + storedPlen s = s.rxcnt.toNat ∧
        byteAt s.rxbuf (6 + storedPlen s) ≠ 0xDD#8) ∧
    (let s := stored [0xAA#8, 0x00#8, 0x22#8, 0x00#8, 0x00#8, 0x23#8, 0xDD#8];
      7 ≤ s.rxcnt.toNat ∧ byteAt s.rxbuf 0 = 0xAA#8 ∧ 7 + storedPlen s = s.rxcnt.toNat ∧
        byteAt s.rxbuf (6 + storedPlen s) = 0xDD#8 ∧
        storedChecksum s ≠ byteAt s.rxbuf (5 + storedPlen s)) ∧
    (let s := stored framePoll;
      7 ≤ s.rxcnt.toNat ∧ byteAt s.rxbuf 0 = 0xAA#8 ∧ 7 + storedPlen s = s.rxcnt.toNat ∧
        byteAt s.rxbuf (6 + storedPlen s) = 0xDD#8 ∧
        storedChecksum s = byteAt s.rxbuf (5 + storedPlen s)) := by decide

/-- The last clause of ValidateMakesItsChecksInOrder: a state that meets the invariants, with no attempt. -/
theorem witness_validate_inv : (stored framePoll).Inv ∧ (stored framePoll).receiving = false :=
  ⟨by constructor <;> decide, by decide⟩

/-- ValidateReadsOnlyStoredBytes: two buffers that differ beyond the count alone. -/
theorem witness_only_stored :
    ∀ k, k < (stored framePoll).rxcnt.toNat →
      byteAt (bufferOf (framePoll ++ [0x05#8])) k = byteAt (stored framePoll).rxbuf k := by decide

/-- StepKeepsTheVerdictCurrent, ChkcalcAccessor: unchecked, and checked and current. -/
theorem witness_verdict_unchecked :
    State.reset.VerdictCurrent ∧ State.reset.vstat.getLsbD 6 = false :=
  ⟨⟨by decide, by decide, by decide⟩, by decide⟩

theorem witness_verdict_current :
    State.VerdictCurrent { stored framePoll with vstat := 0xC0#8, chkcalc := 0x22#8 } :=
  ⟨by decide, by decide, by decide⟩

/-- The accessors: the byte stored or not (RXCNT one above and at the offset), and the plen field. -/
theorem witness_accessors :
    0 + 1 ≤ (stored [0xAA#8]).rxcnt.toNat ∧ ¬ 1 + 1 ≤ (stored [0xAA#8]).rxcnt.toNat ∧
    5 ≤ (stored (framePoll.take 5)).rxcnt.toNat ∧ ¬ 5 ≤ (stored (framePoll.take 4)).rxcnt.toNat ∧
    (16#8 : Byte).toNat < storedPlen (stored frameEX) ∧ ¬ (17#8 : Byte).toNat < storedPlen (stored frameEX) ∧
    6 + storedPlen (stored frameEX) < (stored frameEX).rxcnt.toNat ∧
    ¬ 6 + storedPlen (stored (frameEX.take 23)) < (stored (frameEX.take 23)).rxcnt.toNat := by decide

/-- SingleBitErrorsAreDetected: each kind of offset of EX. -/
theorem witness_single_bit :
    after (exec .validate (stored frameEX)) (fun t => t.vstat.getLsbD 7) = some true ∧
    (∀ i ∈ [0, 2, 3, 4, 5, 22, 23], i < (stored frameEX).rxcnt.toNat) ∧
    6 + storedPlen (stored frameEX) = 23 := by decide

/-- EncBuildWritesTheFrame: the count right and wrong, and 56 and 57 parameters. -/
theorem witness_build :
    [0x01#8, 0x02#8].length = (0x00#8 : Byte).toNat * 256 + (0x02#8 : Byte).toNat ∧
    [0x01#8].length ≠ (0x01#8 : Byte).toNat * 256 + (0x00#8 : Byte).toNat ∧
    (List.replicate 56 0x01#8).length ≤ 56 ∧ 56 < (List.replicate 57 (0x01#8 : Byte)).length := by decide

/-- EncoderOutputReads: an index at ENCLEN. -/
theorem witness_enc_index :
    (recordFrame 0x22#8 [] State.reset).enclen.toNat ≤ (7#8 : Byte).toNat ∧
    (6#8 : Byte).toNat < (recordFrame 0x22#8 [] State.reset).enclen.toNat := by decide

/-- EncoderAndReceiverAreIndependent, RegistersAreWrittenOnlyByTheirRules: the classes of commands, and
two successful builds from different states. -/
theorem witness_encoder_classes :
    encoderCommand .encLen = true ∧ encoderCommand .validate = false ∧
    encodeCommand .encSinglePoll = true ∧ readOnly .rxElapsed = true ∧
    (after (exec .encSinglePoll State.reset) (·.responses.head?)) = some (some [0x00#8]) ∧
    (after (exec .encSinglePoll (running [] [] [])) (·.responses.head?)) = some (some [0x00#8]) := by
  decide

/-- EncodedFramesPassValidate. -/
theorem witness_loopback_loaded :
    ([] : List Byte).length ≤ 56 ∧ State.reset.receiving = false ∧
      State.reset.vstat.extractLsb' 3 3 = 0#3 := by decide

/-- EncodedFramesAreReceivedWhole: Single-Poll's frame, looped back with a byte behind it. -/
theorem witness_loopback_received :
    let s := running [] (framePoll ++ [0x05#8]) (List.replicate 7 .engine)
    let t := (recordFrame 0x22#8 [] s).withResponse [0x00#8]
    exec (.encBuild 0x22#8 []) s = .next t ∧
      (∀ k, 1 ≤ k → k ≤ 5 + 0 → byteAt t.encbuf k ≠ 0xDD#8) ∧ t.receiving = true ∧ t.rxcnt = 0#7 ∧
      t.channel = encodedBytes t ++ [0x05#8] ∧ t.turns = List.replicate (7 + 0) .engine ++ [] :=
  ⟨rfl, by decide, by decide, by decide, by decide, by decide⟩

/-- ResetRestoresEveryRegister: a reset in the middle of an attempt. -/
theorem witness_resets : (running [0xAA#8] [0x11#8] [.reset]).resets := ⟨[], rfl⟩

/-- StepKeepsTheInvariants: the state after reset meets them and its step goes on. -/
theorem witness_step_inv : State.reset.Inv ∧ step State.reset = .next State.reset :=
  ⟨by constructor <;> decide, rfl⟩

/-- OneResponsePerCommand: a step that adds a response, a transmit line, a host with no line, no turn. -/
theorem witness_responses :
    after (step (hostNext [0x11#8] State.reset)) (·.responses) = some [[0x00#8, 0x00#8]] ∧
    State.reset.responses = [] ∧
    ({ State.reset with turns := [.host], script := [.transmit framePoll] } : State).script =
      [.transmit framePoll] ∧
    ({ State.reset with turns := [.host] } : State).script = [] ∧ State.reset.turns = [] := by decide

/-- StepKeepsTheByteStream, ReservedBitsAreKept: a step of a running attempt that is no reset. The state
meets the invariants by `witness_inv_running`. -/
theorem witness_stream_step :
    (running [0xAA#8, 0x02#8] [0xDD#8] [.time, .time, .time]).receiving = true ∧
    after (step (running [0xAA#8, 0x02#8] [0xDD#8] [.time, .time, .time]))
      (fun t => rxstatRes t.rxstat) = some 0#3 := by decide

theorem witness_not_reset : ¬ (running [0xAA#8, 0x02#8] [0xDD#8] [.time, .time, .time]).resets := by
  rintro ⟨rest, h⟩
  cases h

/-- RegistersAreWrittenOnlyByTheirRules: a step that changes each register. -/
theorem witness_writers :
    (after (step (running [] [0xAA#8] [.engine])) (·.rxcnt)) = some 1#7 ∧
    (after (step { running [] [] [.time] with elapsed := 2#32 }) (·.rxstat)) = some 0x22#8 ∧
    (after (step (hostNext [0x10#8, 0x00#8, 0x00#8, 0x00#8, 0x01#8] State.reset)) (·.timeout)) =
      some 1#32 ∧
    (after (step (running [] [] [.time])) (·.elapsed)) = some 1#32 ∧
    (after (step (hostNext [0x20#8] State.reset)) (·.vstat)) = some 0x41#8 ∧
    (after (step (hostNext [0x32#8] State.reset)) (·.enclen)) = some 7#7 ∧
    (after (step { State.reset with turns := [.channel 0x05#8] }) (·.channel)) = some [0x05#8] := by
  decide

/-- OnlyTheEngineTakesChannelBytes: an engine that moves, with room and full. -/
theorem witness_takes_room : (running [] [0xAA#8] [.engine]).engineMoves :=
  ⟨⟨[], rfl⟩, by decide, by decide⟩

theorem witness_takes_full :
    (running (List.replicate 63 0x01#8) [0x00#8] [.engine]).engineMoves ∧
      63 ≤ (running (List.replicate 63 0x01#8) [0x00#8] [.engine]).rxcnt.toNat :=
  ⟨⟨⟨[], rfl⟩, by decide, by decide⟩, by decide⟩

/-- Its other premises: a step that is neither the engine's nor the channel's, and a queue that fits. -/
theorem witness_takes_none : ¬ (running [] [0xAA#8] [.time]).engineMoves := by
  rintro ⟨⟨rest, h⟩, _⟩
  cases h

theorem witness_not_channel (b : Byte) (rest : List Turn) :
    (running [] [0xAA#8] [.time]).turns ≠ .channel b :: rest ∧ fitsDepth (some 1) [0xAA#8] = true :=
  ⟨fun h => (nomatch h), by decide⟩

/-- ChkcalcAccessor, its last clause, and ReadsHaveNoSideEffect: a VALIDATE that stops at check 1, and one
that stops at check 4. -/
theorem witness_early_stop :
    after (exec .validate State.reset) (fun t => t.vstat.extractLsb' 0 3) = some 1#3 ∧
    after (exec .validate (stored [0xAA#8, 0x00#8, 0x22#8, 0x00#8, 0x00#8, 0x22#8, 0x00#8]))
      (fun t => t.vstat.extractLsb' 0 3) = some 4#3 := by decide

/-- UnlistedOpcodesAnswerIllegal, its last clause, and EncoderAndReceiverAreIndependent, an encode command
that is refused and an encoder command that encodes nothing. -/
theorem witness_refused_build :
    (List.replicate 57 0x00#8).length = (0x00#8 : Byte).toNat * 256 + (0x39#8 : Byte).toNat ∧
    56 < (List.replicate 57 (0x00#8 : Byte)).length ∧
    (after (exec (.encBuild 0x10#8 (List.replicate 57 0x00#8)) State.reset) (·.responses.head?)) ≠
      some (some [0x00#8]) ∧
    encodeCommand (.encBuild 0x10#8 (List.replicate 57 0x00#8)) = true ∧
    encoderCommand (.encRead 0#8) = true ∧ encodeCommand (.encRead 0#8) = false := by decide

/-- AttemptsTakeAPrefixOfTheirStream: an attempt that a byte arriving between two engine steps completes,
and one that overflows. The states meet the invariants, and the turns hold no reset. -/
theorem witness_stream_run :
    (running [] [0xAA#8] [.engine, .channel 0xDD#8, .engine]).Inv ∧
    ∃ t, runsTo 3 (running [] [0xAA#8] [.engine, .channel 0xDD#8, .engine]) t ∧
      rxstatRes t.rxstat = 1#3 :=
  ⟨by constructor <;> decide, _, ⟨_, rfl, _, rfl, _, rfl, rfl⟩, by decide⟩

theorem witness_stream_run_receiving (j : Nat) (u : State) (hj : j < 3)
    (h : runsTo j (running [] [0xAA#8] [.engine, .channel 0xDD#8, .engine]) u) :
    u.receiving = true := by
  match j, h with
  | 0, h => subst h; decide
  | 1, ⟨_, h1, h⟩ => subst h; cases h1; decide
  | 2, ⟨_, h1, _, h2, h⟩ => subst h; cases h1; cases h2; decide

theorem witness_stream_overflow :
    (running (List.replicate 63 0x01#8) [0x00#8] [.engine]).Inv ∧
    (∃ t, runsTo 1 (running (List.replicate 63 0x01#8) [0x00#8] [.engine]) t ∧
      rxstatRes t.rxstat = 3#3) ∧
    ∀ j u, j < 1 → runsTo j (running (List.replicate 63 0x01#8) [0x00#8] [.engine]) u →
      u.receiving = true :=
  ⟨by constructor <;> decide, ⟨_, ⟨_, rfl, rfl⟩, by decide⟩,
    fun j u hj h => by obtain rfl : j = 0 := by omega
                       subst h; decide⟩

/-- AwaitPollsUntilDone: the attempt still running, and done. -/
theorem witness_await :
    (({ running [] [] [.host] with script := [.awaitDone] } : State).rxstat).toNat % 4 = 1 ∧
    (({ stored framePoll with turns := [.host], script := [.awaitDone] } : State).rxstat).toNat % 4 =
      2 := by decide

/-- AssemblerRefusesWhatDoesNotFit and PseudoInstructionsExpand: each operand at its bound. -/
theorem witness_operands :
    2 ^ 32 - 1 < 2 ^ 32 ∧ 2 ^ 32 ≤ 4294967296 ∧ 255 < 256 ∧ (∀ p ∈ [0, 255], p < 256) ∧
    [0, 255].length ≤ 65535 ∧ (∃ p ∈ [0, 256], 256 ≤ p) := by decide

end Sys2Proof.Tests
end

section
/-! PROOFS. The host's await loop (`00_scope.md` R9, `30_encoding.md` R81). -/

namespace Sys2Proof.Machine

/-- STATE is the two low bits of RXSTAT (R13), as a number. -/
theorem rxstatState_toNat (r : Byte) : (rxstatState r).toNat = r.toNat % 4 := by
  simp [rxstatState]

theorem done_iff_mod_four (s : State) : s.done = true ↔ s.rxstat.toNat % 4 = 2 := by
  rw [done_eq, beq_iff_eq, ← BitVec.toNat_inj, rxstatState_toNat, BitVec.toNat_ofNat]

/-- The host's turn on an await line is one RX_STATUS; the line goes exactly when the attempt is done. -/
theorem hostTurn_await {s : State} {lines : List HostLine} (h : s.script = .awaitDone :: lines) :
    hostTurn s = .next
      ((s.withScript (if s.done then lines else s.script)).withResponse [0x00#8, s.rxstat]) := by
  rcases hostTurn_cases s with ⟨hs, _⟩ | ⟨_, _, hs, _⟩ | ⟨_, _, hs, _⟩ | ⟨rest, hs, hx⟩
  · simp [h] at hs
  · simp [h] at hs
  · simp [h] at hs
  · obtain rfl : lines = rest := by simpa [h] using hs
    exact hx

/-- Settles O47: a host step on an await line is the RX_STATUS poll of `hostTurn_await`, and the test it
makes, STATE = DONE, is the statement's `RXSTAT mod 4 = 2`. -/
theorem awaitPollsUntilDone : Obligations.AwaitPollsUntilDone := by
  intro s rest lines hturns hscript
  have hpoll : (s.withTurns rest).script = .awaitDone :: lines := by simp [hscript]
  rw [step_of_turn hturns, takeTurn, hostTurn_await hpoll]
  simp only [done_iff_mod_four, hpoll]
  rfl

end Sys2Proof.Machine
end

section
/-! PROOFS. What a step does to the block's registers and the channel (`10_state.md`): each step is one of
the shared operations applied to the state it started from, or leaves them all alone. The model's own
fields and the response are left out of the comparison. -/

namespace Sys2Proof.Machine

/-- The registers and the channel of a state, the model's own fields blank. -/
def State.block (s : State) : State := { s with sent := [], responses := [], script := [], turns := [] }

theorem State.block_eq_iff {s t : State} :
    t.block = s.block ↔ t.rxbuf = s.rxbuf ∧ t.rxcnt = s.rxcnt ∧ t.rxstat = s.rxstat ∧
      t.timeout = s.timeout ∧ t.elapsed = s.elapsed ∧ t.vstat = s.vstat ∧ t.chkcalc = s.chkcalc ∧
      t.encbuf = s.encbuf ∧ t.enclen = s.enclen ∧ t.channel = s.channel := by
  simp [State.block]

/-- The invariants read the block alone. -/
theorem State.Inv.of_block {s t : State} (hi : s.Inv) (h : t.block = s.block) : t.Inv := by
  obtain ⟨hbuf, hcnt, hstat, htmo, hela, hv, hck, hebuf, helen, _⟩ := State.block_eq_iff.1 h
  exact hi.congr ⟨hbuf, hcnt, hstat, htmo, hela, hv, hck⟩ ⟨hebuf, helen⟩

/-- What a step from `s` to `t` writes to the registers and the channel, by the rule that says so. -/
inductive BlockStep (s t : State) : Prop
  | quiet (h : t.block = s.block)
  | start (w : BitVec 32) (hp : s.performs (.rxStart w)) (hs : s.receiving = false)
      (h : t.block = (startAttempt w s).block)
  | verdict (hp : s.performs .validate) (hs : s.receiving = false)
      (h : t.block = (recordVerdict s).block)
  | build (i : Instr) (hp : s.performs i) (hi : encodeCommand i = true) (c : Byte)
      (params : List Byte) (hl : params.length ≤ 56) (h : t.block = (recordFrame c params s).block)
  | overflow (hm : s.engineMoves) (hf : 63 ≤ s.rxcnt.toNat) (h : t.block = (overflow s).block)
  | append (hm : s.engineMoves) (b : Byte) (q : List Byte) (hq : s.channel = b :: q)
      (hf : s.rxcnt.toNat < 63) (hb : b ≠ 0xDD#8)
      (h : t.block = (appendByte b (s.withChannel q)).block)
  | terminator (hm : s.engineMoves) (q : List Byte) (hq : s.channel = 0xDD#8 :: q)
      (hf : s.rxcnt.toNat < 63)
      (h : t.block = (terminatorStop (appendByte 0xDD#8 (s.withChannel q))).block)
  | arrival (b : Byte) (rest : List Turn) (ht : s.turns = .channel b :: rest)
      (h : t.block = (chanAppend b s).block)
  | elapse (ht : s.ticks) (hr : s.receiving = true) (he : s.elapsed + 1#32 ≠ s.timeout)
      (h : t.block = (s.withElapsed (s.elapsed + 1#32)).block)
  | expire (ht : s.ticks) (hr : s.receiving = true) (he : s.elapsed + 1#32 = s.timeout)
      (h : t.block = (completeWith (if frameOK s then .frame else .timeout)
        (s.withElapsed (s.elapsed + 1#32))).block)
  | reset (ht : s.resets) (h : t.block = (resetBlock s).block)

theorem blockStep_of_command {s u : State} {i : Instr} {rest : List Turn} {lines : List HostLine}
    (r : List Byte) (hp : s.performs i)
    (he : CommandEffect i ((s.withTurns rest).withScript lines) u) :
    BlockStep s (u.withResponse r) := by
  cases he with
  | none => exact .quiet rfl
  | start w hi hs => exact .start w (hi ▸ hp) hs rfl
  | verdict hi hs => exact .verdict (hi ▸ hp) hs rfl
  | frame c params hi hl => exact .build i hp hi c params hl rfl

theorem blockStep_of_engine {s : State} {rest : List Turn} (ht : s.turns = .engine :: rest) :
    BlockStep s (engineStep (s.withTurns rest)) := by
  rcases engineStep_cases (s.withTurns rest) with hx | ⟨b, q, hr, hq, hforms⟩
  · exact .quiet (by rw [hx]; rfl)
  · have hm : s.engineMoves := ⟨⟨rest, ht⟩, hr, by simpa using hq ▸ List.cons_ne_nil b q⟩
    rcases hforms with ⟨hf, hx⟩ | ⟨hf, hb, hx⟩ | ⟨hf, rfl, hx⟩
    · exact .overflow hm hf (by rw [hx]; rfl)
    · exact .append hm b q hq hf hb (by rw [hx]; rfl)
    · exact .terminator hm q hq hf (by rw [hx]; rfl)

theorem blockStep_of_time {s : State} {rest : List Turn} (ht : s.turns = .time :: rest) :
    BlockStep s (tick (s.withTurns rest)) := by
  cases hr : s.receiving
  · exact .quiet (by rw [tick_outside (s := s.withTurns rest) hr]; rfl)
  · by_cases he : s.elapsed + 1#32 = s.timeout
    · exact .expire ⟨rest, ht⟩ hr he (by rw [tick_expiry (s := s.withTurns rest) hr he]; rfl)
    · exact .elapse ⟨rest, ht⟩ hr he (by rw [tick_running (s := s.withTurns rest) hr he]; rfl)

/-- Every step is one of the block's operations on the state it started from. -/
theorem step_blockStep {s t : State} (h : step s = .next t) : BlockStep s t := by
  cases step_cases h with
  | command rest ht bytes lines hs i hd u r _ he =>
    exact blockStep_of_command r ⟨rest, lines, bytes, ht, hs, hd⟩ he
  | engine rest ht => exact blockStep_of_engine ht
  | channel rest b ht => exact .arrival b rest ht rfl
  | time rest ht => exact blockStep_of_time ht
  | reset rest ht => exact .reset ⟨rest, ht⟩ rfl
  | waits | noLine | rejected | transmit | await => exact .quiet rfl

end Sys2Proof.Machine
end

section
/-! PROOFS. Which steps write a register (`10_state.md` sections 2 to 4), and that the reserved bits of
RXSTAT and VSTAT keep what they hold (K1-12). -/

namespace Sys2Proof.Machine

/-- Settles O44: the operation a step performs says which registers it leaves as they were; the others
are the ones whose rule names the step. -/
theorem registersAreWrittenOnlyByTheirRules : Obligations.RegistersAreWrittenOnlyByTheirRules := by
  intro s t hst
  cases step_blockStep hst with
  | quiet h => simp [State.block_eq_iff.1 h]
  | start w hp _ h =>
    have hw : ∃ w, s.performs (.rxStart w) := ⟨w, hp⟩
    simp [State.block_eq_iff.1 h, hw]
  | verdict hp _ h => simp [State.block_eq_iff.1 h, hp]
  | build i hp hi c params _ h =>
    have hw : ∃ i, encodeCommand i = true ∧ s.performs i := ⟨i, hi, hp⟩
    simp [State.block_eq_iff.1 h, hw]
  | overflow hm _ h => simp [State.block_eq_iff.1 h, hm]
  | append hm b q _ _ _ h => simp [State.block_eq_iff.1 h, hm]
  | terminator hm q _ _ h => simp [State.block_eq_iff.1 h, terminatorStop, hm]
  | arrival b rest ht h =>
    have hw : ∃ b rest, s.turns = .channel b :: rest := ⟨b, rest, ht⟩
    simp [State.block_eq_iff.1 h, hw]
  | elapse ht hr _ h => simp [State.block_eq_iff.1 h, ht, hr]
  | expire ht hr _ h => simp [State.block_eq_iff.1 h, ht, hr]
  | reset ht h => simp [State.block_eq_iff.1 h, ht]

/-- Settles O52: an operation that writes RXSTAT or VSTAT writes its fields, and RX_START alone writes
VSTAT whole. -/
theorem reservedBitsAreKept : Obligations.ReservedBitsAreKept := by
  intro s t hst hreset
  cases step_blockStep hst with
  | quiet h => simp [State.block_eq_iff.1 h]
  | start w hp _ h =>
    refine ⟨?_, .inl ⟨w, hp⟩⟩
    simp only [State.block_eq_iff.1 h, startAttempt_fields]
    split <;> exact rxstatWrite_reserved _ _ _
  | verdict _ _ h => simp [State.block_eq_iff.1 h, vstatWrite_reserved]
  | build i _ _ c params _ h => simp [State.block_eq_iff.1 h]
  | overflow _ _ h => simp [State.block_eq_iff.1 h, rxstatWrite_reserved]
  | append _ b q _ _ _ h => simp [State.block_eq_iff.1 h]
  | terminator _ q _ _ h => simp [State.block_eq_iff.1 h, terminatorStop, rxstatWrite_reserved]
  | arrival b rest _ h => simp [State.block_eq_iff.1 h]
  | elapse _ _ _ h => simp [State.block_eq_iff.1 h]
  | expire _ _ _ h => simp [State.block_eq_iff.1 h, rxstatWrite_reserved]
  | reset ht _ => exact absurd ht hreset

end Sys2Proof.Machine
end

section
/-! PROOFS. The invariants of R20 hold after reset, and every step keeps them. The clauses that do not look
at RXSTAT stand in a predicate of their own, so that an operation that writes RXSTAT owes, beside them, only
what its new STATE and RES claim. -/

namespace Sys2Proof.Machine

/-! ## The invariants in two parts -/

/-- The clauses of `State.Inv` that hold whatever RXSTAT is. -/
structure State.RegistersInv (s : State) : Prop where
  rxcnt_le : s.rxcnt.toNat ≤ Config.rxMax
  rxbuf_zero : ∀ i, s.rxcnt.toNat ≤ i → i < Config.rxCap → byteAt s.rxbuf i = 0x00#8
  elapsed_le : s.elapsed.toNat ≤ s.timeout.toNat
  enclen_range : s.enclen = 0#7 ∨ (7 ≤ s.enclen.toNat ∧ s.enclen.toNat ≤ 63)
  encbuf_zero : ∀ i, s.enclen.toNat ≤ i → i < Config.encCap → byteAt s.encbuf i = 0x00#8
  vstat_legal : s.vstat ∈ [0x00#8, 0xC0#8, 0x41#8, 0x42#8, 0x43#8, 0x44#8, 0x45#8]

theorem State.Inv.registers {s : State} (hi : s.Inv) : s.RegistersInv := { hi with }

/-- No stored byte is a terminator (R20 item 3). -/
def State.NoTerminator (s : State) : Prop :=
  ∀ i, i < s.rxcnt.toNat → byteAt s.rxbuf i ≠ Config.terminator

/-- What R20 item 4 says of a completed attempt's result. An attempt never completes with NONE. -/
def State.ResultHolds (s : State) : RecvResult → Prop
  | .none => False
  | .frame => frameOK s = true
  | .badframe => 1 ≤ s.rxcnt.toNat ∧ byteAt s.rxbuf (s.rxcnt.toNat - 1) = Config.terminator ∧
      (s.rxcnt.toNat = 1 ∨ byteAt s.rxbuf 0 ≠ Config.header)
  | .timeout => s.elapsed = s.timeout ∧ s.NoTerminator
  | .overflow => s.rxcnt = 0#7

theorem recvResult_code_injective {a b : RecvResult} (h : a.code = b.code) : a = b := by
  revert h; cases a <;> cases b <;> decide

theorem rxstatWrite_done_legal {r : Byte} {res : RecvResult} (hr : r &&& 0x8C#8 = 0x00#8)
    (hres : res ≠ .none) :
    rxstatWrite r .done res ∈ [0x00#8, 0x01#8, 0x12#8, 0x22#8, 0x32#8, 0x42#8] := by
  rw [rxstatWrite_of_legal _ _ hr]
  revert hres; cases res <;> decide

theorem vstatWrite_legal {v : Byte} (reason : Reason)
    (h : v ∈ [0x00#8, 0xC0#8, 0x41#8, 0x42#8, 0x43#8, 0x44#8, 0x45#8]) :
    vstatWrite v reason ∈ [0x00#8, 0xC0#8, 0x41#8, 0x42#8, 0x43#8, 0x44#8, 0x45#8] := by
  revert h; revert v; cases reason <;> decide

/-- A state whose RXSTAT says DONE with a result meets the invariants when the result holds. -/
theorem State.RegistersInv.inv_of_done {s : State} {r : Byte} {res : RecvResult}
    (hs : s.RegistersInv) (hw : s.rxstat = rxstatWrite r .done res) (hr : r &&& 0x8C#8 = 0x00#8)
    (hres : s.ResultHolds res) : s.Inv := by
  have hrec : s.receiving ≠ true := by simp [State.receiving, hw, RecvState.code]
  have hcode {res' : RecvResult} (h : rxstatRes s.rxstat = res'.code) : s.ResultHolds res' := by
    rw [hw, rxstatRes_write] at h
    exact recvResult_code_injective h ▸ hres
  have hnone : res ≠ .none := fun h => by simp [h, State.ResultHolds] at hres
  exact
    { hs with
      elapsed_lt := fun h => absurd h hrec
      no_terminator := fun h => absurd h hrec
      frame := fun h => (frameOK_iff s).1 (hcode h)
      badframe := hcode
      timed_out := hcode
      overflowed := hcode
      rxstat_legal := hw ▸ rxstatWrite_done_legal hr hnone }

/-- A state whose RXSTAT says RECEIVING meets the invariants when its window is open and no terminator is
stored. -/
theorem State.RegistersInv.inv_of_receiving {s : State} (hs : s.RegistersInv)
    (hw : s.rxstat = 0x01#8) (hlt : s.elapsed.toNat < s.timeout.toNat) (hn : s.NoTerminator) :
    s.Inv := by
  have hcode {res : RecvResult} (h : rxstatRes s.rxstat = res.code) : res = .none := by
    rw [hw] at h
    exact recvResult_code_injective h.symm
  exact
    { hs with
      elapsed_lt := fun _ => hlt
      no_terminator := fun _ => hn
      frame := fun h => nomatch hcode h
      badframe := fun h => nomatch hcode h
      timed_out := fun h => nomatch hcode h
      overflowed := fun h => nomatch hcode h
      rxstat_legal := by simp [hw] }

/-! ## Reset -/

theorem inv_reset : State.reset.Inv := by constructor <;> decide

theorem verdictCurrent_reset : State.reset.VerdictCurrent := by constructor <;> decide

/-- Settles O39: in the reset state every register is clear, so both invariants are evaluated. -/
theorem resetMeetsTheInvariants : Obligations.ResetMeetsTheInvariants :=
  ⟨inv_reset, verdictCurrent_reset⟩

theorem inv_resetBlock (s : State) : (resetBlock s).Inv :=
  inv_reset.congr ⟨rfl, rfl, rfl, rfl, rfl, rfl, rfl⟩ ⟨rfl, rfl⟩

/-! ## The commands -/

theorem inv_startAttempt {s : State} (hi : s.Inv) (w : BitVec 32) : (startAttempt w s).Inv := by
  have hr := rxstat_reserved_of_legal hi.rxstat_legal
  have hs : (startAttempt w s).RegistersInv :=
    { hi with
      rxcnt_le := by simp
      rxbuf_zero := by simp
      elapsed_le := by simp
      vstat_legal := by simp }
  have hn : (startAttempt w s).NoTerminator := by simp [State.NoTerminator]
  by_cases hw : w = 0#32
  · exact hs.inv_of_done (res := .timeout) (by simp [hw]) hr ⟨by simp [hw], hn⟩
  · refine hs.inv_of_receiving ?_ ?_ hn
    · simp only [startAttempt_fields, if_neg hw, rxstatWrite_of_legal _ _ hr]
      decide
    · exact Nat.pos_of_ne_zero fun h => hw (BitVec.eq_of_toNat_eq h)

theorem inv_recordVerdict {s : State} (hi : s.Inv) : (recordVerdict s).Inv :=
  { hi with vstat_legal := vstatWrite_legal _ hi.vstat_legal }

theorem inv_recordFrame {s : State} (hi : s.Inv) (c : Byte) {params : List Byte}
    (hl : params.length ≤ 56) : (recordFrame c params s).Inv := by
  have hlen := recordFrame_enclen c s hl
  exact
    { hi with
      enclen_range := .inr (by omega)
      encbuf_zero := fun i hle _ => by
        rw [recordFrame_byteAt s hl]
        exact List.getD_eq_default _ _ (by rw [buildFrame_length]; omega) }

/-! ## The engine and the channel -/

theorem inv_withChannel {s : State} (hi : s.Inv) (q : List Byte) : (s.withChannel q).Inv :=
  { hi with }

theorem registersInv_appendByte {s : State} (hs : s.RegistersInv) (b : Byte)
    (hf : s.rxcnt.toNat < 63) : (appendByte b s).RegistersInv := by
  have hcnt := appendByte_count b hf
  exact
    { hs with
      rxcnt_le := by rw [hcnt]; exact hf
      rxbuf_zero := fun i hle hlt => by
        rw [appendByte_byteAt b hf, if_neg (by omega)]
        exact hs.rxbuf_zero i (by omega) hlt }

theorem inv_overflow {s : State} (hi : s.Inv) : (overflow s).Inv := by
  have hs : (overflow s).RegistersInv :=
    { hi with rxcnt_le := by simp, rxbuf_zero := by simp }
  exact hs.inv_of_done rfl (rxstat_reserved_of_legal hi.rxstat_legal) rfl

theorem inv_appendByte {s : State} (hi : s.Inv) (hr : s.receiving = true) {b : Byte}
    (hf : s.rxcnt.toNat < 63) (hb : b ≠ 0xDD#8) : (appendByte b s).Inv := by
  have hw := rxstat_of_receiving hi hr
  refine (registersInv_appendByte hi.registers b hf).inv_of_receiving hw (hi.elapsed_lt hr)
    fun i hlt => ?_
  rw [appendByte_count b hf] at hlt
  rw [appendByte_byteAt b hf]
  split
  · exact hb
  · exact hi.no_terminator hr i (by omega)

/-- TerminatorStop's two results are what R20 item 4 says of the terminator just stored. -/
theorem resultHolds_of_terminator {s : State} (hf : s.rxcnt.toNat < 63) :
    (appendByte 0xDD#8 s).ResultHolds (if frameOK (appendByte 0xDD#8 s) then .frame else .badframe) := by
  split
  · assumption
  · next hno =>
    rw [frameOK_append_terminator hf] at hno
    refine ⟨by rw [appendByte_count _ hf]; omega, ?_, ?_⟩
    · rw [appendByte_count _ hf, appendByte_byteAt _ hf]
      simp
    · rw [appendByte_count _ hf, appendByte_byteAt _ hf]
      by_cases hz : s.rxcnt.toNat = 0
      · exact .inl (by omega)
      · rw [if_neg (Ne.symm hz)]
        exact .inr fun hh => hno ⟨by omega, hh⟩

theorem inv_terminatorStop {s : State} (hi : s.Inv) (hf : s.rxcnt.toNat < 63) :
    (terminatorStop (appendByte 0xDD#8 s)).Inv := by
  have hs : (terminatorStop (appendByte 0xDD#8 s)).RegistersInv :=
    { registersInv_appendByte hi.registers 0xDD#8 hf with }
  have hres := resultHolds_of_terminator hf
  exact hs.inv_of_done rfl (rxstat_reserved_of_legal hi.rxstat_legal) hres

/-! ## Time -/

theorem inv_elapse {s : State} (hi : s.Inv) (hr : s.receiving = true)
    (he : s.elapsed + 1#32 ≠ s.timeout) : (s.withElapsed (s.elapsed + 1#32)).Inv := by
  have hlt : (s.elapsed + 1#32).toNat < s.timeout.toNat := by
    have := hi.elapsed_lt hr
    bv_omega
  have hs : (s.withElapsed (s.elapsed + 1#32)).RegistersInv := { hi with elapsed_le := hlt.le }
  have hw := rxstat_of_receiving hi hr
  exact hs.inv_of_receiving hw hlt (hi.no_terminator hr)

/-- An attempt whose window closes has stored no terminator, so it has timed out (R105). -/
theorem inv_expire {s : State} (hi : s.Inv) (hr : s.receiving = true)
    (he : s.elapsed + 1#32 = s.timeout) :
    (completeWith (if frameOK s then .frame else .timeout) (s.withElapsed (s.elapsed + 1#32))).Inv := by
  have hn := hi.no_terminator hr
  rw [frameOK_of_no_terminator hn, he]
  have hs : (completeWith .timeout (s.withElapsed s.timeout)).RegistersInv :=
    { hi with elapsed_le := le_rfl }
  exact hs.inv_of_done rfl (rxstat_reserved_of_legal hi.rxstat_legal) ⟨rfl, hn⟩

/-! ## The step -/

/-- Settles O40: each operation a step can perform keeps the invariants, and what a step does beside it
they do not read. -/
theorem stepKeepsTheInvariants : Obligations.StepKeepsTheInvariants := by
  intro s t hi hst
  cases step_blockStep hst with
  | quiet h => exact hi.of_block h
  | start w _ _ h => exact (inv_startAttempt hi w).of_block h
  | verdict _ _ h => exact (inv_recordVerdict hi).of_block h
  | build _ _ _ c params hl h => exact (inv_recordFrame hi c hl).of_block h
  | overflow _ _ h => exact (inv_overflow hi).of_block h
  | append hm b q _ hf hb h =>
    obtain ⟨_, hr, _⟩ := hm
    exact (inv_appendByte (inv_withChannel hi q) hr hf hb).of_block h
  | terminator _ q _ hf h => exact (inv_terminatorStop (inv_withChannel hi q) hf).of_block h
  | arrival b _ _ h => exact (inv_withChannel hi (s.channel ++ [b])).of_block h
  | elapse _ hr he h => exact (inv_elapse hi hr he).of_block h
  | expire _ hr he h => exact (inv_expire hi hr he).of_block h
  | reset _ h => exact (inv_resetBlock s).of_block h

end Sys2Proof.Machine
end

section
/-! PROOFS. Where the fields of RXSTAT and VSTAT lie (`10_state.md` R13, R16). -/

namespace Sys2Proof.Machine

theorem receiving_iff_mod_four (s : State) : s.receiving = true ↔ s.rxstat.toNat % 4 = 1 := by
  rw [receiving_eq, beq_iff_eq, ← BitVec.toNat_inj, rxstatState_toNat, BitVec.toNat_ofNat]

theorem rxstatRes_toNat (r : Byte) : (rxstatRes r).toNat = r.toNat / 16 % 8 := by
  simp [rxstatRes, Nat.shiftRight_eq_div_pow]

theorem vstatReason_toNat (v : Byte) : (vstatReason v).toNat = v.toNat % 8 := by
  simp [vstatReason]

theorem vstatChecked_iff (v : Byte) : vstatChecked v = true ↔ v.toNat / 64 % 2 = 1 := by
  simp [vstatChecked, BitVec.getLsbD, Nat.testBit_eq_decide_div_mod_eq]

theorem vstatValid_iff (v : Byte) : vstatValid v = true ↔ v.toNat / 128 = 1 := by
  have := v.isLt
  simp only [vstatValid, BitVec.getLsbD, Nat.testBit_eq_decide_div_mod_eq, decide_eq_true_eq]
  omega

/-- A field below a value: `{hi, lo}` as a number. -/
theorem append_toNat {n k : Nat} (hi : BitVec n) (lo : BitVec k) :
    (hi ++ lo).toNat = hi.toNat * 2 ^ k + lo.toNat := by
  rw [BitVec.toNat_append, ← Nat.shiftLeft_add_eq_or_of_lt lo.isLt, Nat.shiftLeft_eq]

theorem rxstatWrite_toNat (r : Byte) (st : RecvState) (res : RecvResult) :
    (rxstatWrite r st res).toNat =
      r.toNat / 128 * 128 + res.code.toNat * 16 + r.toNat / 4 % 4 * 4 + st.code.toNat := by
  have := r.isLt
  simp only [rxstatWrite, append_toNat, BitVec.extractLsb'_toNat, Nat.shiftRight_eq_div_pow]
  omega

theorem vstatWrite_toNat (v : Byte) (reason : Reason) :
    (vstatWrite v reason).toNat =
      (if reason = .ok then 128 else 0) + 64 + v.toNat / 8 % 8 * 8 + reason.code.toNat := by
  have hvalid : (BitVec.ofBool (reason == .ok)).toNat = if reason = .ok then 1 else 0 := by
    cases reason <;> rfl
  simp only [vstatWrite, append_toNat, BitVec.extractLsb'_toNat, Nat.shiftRight_eq_div_pow, hvalid,
    BitVec.toNat_ofNat]
  split <;> omega

/-- Settles O46: each field as a quotient and remainder of its byte, and each write as the sum of its
fields. -/
theorem statusFieldsLieWhereTheSpecPutsThem : Obligations.StatusFieldsLieWhereTheSpecPutsThem :=
  ⟨fun s => ⟨receiving_iff_mod_four s, done_iff_mod_four s⟩,
    fun r => ⟨rxstatRes_toNat r, vstatReason_toNat r, vstatChecked_iff r, vstatValid_iff r⟩,
    rxstatWrite_toNat, vstatWrite_toNat⟩

end Sys2Proof.Machine
end

section
/-! PROOFS. The channel and the agents' steps (`20_memory.md` R48, R50, R51). -/

namespace Sys2Proof.Machine

/-! ## The step of the channel -/

/-- Settles O17: the channel's turn is `chanAppend`, which writes the queue alone. -/
theorem channelAppendsToTheTail : Obligations.ChannelAppendsToTheTail := by
  intro s rest b hturns
  rw [step_of_turn hturns]
  rfl

/-! ## The step of the host -/

theorem hostTurn_command {s : State} {bytes : List Byte} {lines : List HostLine}
    (h : s.script = .command bytes :: lines) :
    hostTurn s = hostCommand bytes (s.withScript lines) := by
  simp [hostTurn, h]

theorem step_of_command {s : State} {rest : List Turn} {bytes : List Byte} {lines : List HostLine}
    (hturns : s.turns = .host :: rest) (hscript : s.script = .command bytes :: lines) :
    step s = hostCommand bytes { s with turns := rest, script := lines } := by
  have hs : (s.withTurns rest).script = .command bytes :: lines := by simp [hscript]
  rw [step_of_turn hturns, takeTurn, hostTurn_command hs]
  rfl

theorem step_withFetchWord (s : State) (nbits w : Nat) :
    step (s.withFetchWord nbits w) = hostCommand (tableBytes nbits w) s := rfl

theorem decodeTableWord_eq_some {nbits w : Nat} {i : Instr} (h : decodeTableWord nbits w = some i) :
    decode (tableBytes nbits w) = .ok i := by
  unfold decodeTableWord at h
  cases hd : decode (tableBytes nbits w) with
  | ok j => simpa [hd, Except.toOption] using h
  | error e => simp [hd, Except.toOption] at h

/-- The status byte of a rejection is ILLEGAL's for the illegal opcode alone (R69, R70). -/
theorem decodeStatus_code (e : DecodeError) :
    (decodeStatus e).code = if e = DecodeError.illegalOpcode then 0x03#8 else 0x04#8 := by
  cases e <;> rfl

/-- Settles O7: a host step on a command line is `hostCommand`, which performs what the decoder reads or
answers why it reads nothing; a placed table word is such a line. -/
theorem stepPerformsTheDecodedCommand : Obligations.StepPerformsTheDecodedCommand := by
  refine ⟨?_, ?_, ?_⟩
  · intro s rest lines bytes i hturns hscript hdecode
    rw [step_of_command hturns hscript, hostCommand_ok _ hdecode]
  · intro s rest lines bytes e hturns hscript hdecode
    rw [step_of_command hturns hscript, hostCommand_error _ hdecode, decodeStatus_code]
  · intro s nbits w i hword
    rw [step_withFetchWord, hostCommand_ok _ (decodeTableWord_eq_some hword)]

/-! ## The commands and the channel -/

/-- An action of the block that neither reads nor writes the channel's queue: with another queue it goes
the same way and leaves that queue. -/
def IgnoresChannel (act : State → Result) : Prop :=
  ∀ (s : State) (q : List Byte),
    ∃ t, act s = .next t ∧ t.channel = s.channel ∧ act (s.withChannel q) = .next (t.withChannel q)

/-- An answer ignores the channel where its result bytes and what it writes first do. -/
theorem ignoresChannel_respond {f : State → List Byte} {g : State → State}
    (hf : ∀ s q, f (s.withChannel q) = f s) (hg : ∀ s, (g s).channel = s.channel)
    (hgq : ∀ s q, g (s.withChannel q) = (g s).withChannel q) :
    IgnoresChannel fun s => respond (f s) (g s) := by
  intro s q
  refine ⟨_, respond_eq _ _, hg s, ?_⟩
  simp only [hf, hgq]
  rfl

theorem ignoresChannel_read {f : State → List Byte} (hf : ∀ s q, f (s.withChannel q) = f s) :
    IgnoresChannel fun s => respond (f s) s :=
  ignoresChannel_respond (g := fun s => s) hf (fun _ => rfl) fun _ _ => rfl

theorem ignoresChannel_unlessReceiving {act : State → Result} (h : IgnoresChannel act) :
    IgnoresChannel (unlessReceiving act) := by
  intro s q
  cases hr : s.receiving
  · rw [unlessReceiving_idle hr, unlessReceiving_idle (s := s.withChannel q) hr]
    exact h s q
  · exact ⟨_, unlessReceiving_busy hr, rfl, unlessReceiving_busy (s := s.withChannel q) hr⟩

theorem ignoresChannel_encodeFrame (c : Byte) (params : List Byte) :
    IgnoresChannel (encodeFrame c params) := by
  intro s q
  by_cases h : params.length ≤ 56
  · exact ⟨_, encodeFrame_ok s h, rfl, encodeFrame_ok _ h⟩
  · have h' : 56 < params.length := by omega
    exact ⟨_, encodeFrame_range s h', rfl, encodeFrame_range _ h'⟩

/-- No host command reads or writes the channel (R50). -/
theorem exec_ignoresChannel (i : Instr) : IgnoresChannel (exec i) := by
  cases i with
  | rxStart t | validate =>
    exact ignoresChannel_unlessReceiving
      (ignoresChannel_respond (fun _ _ => rfl) (fun _ => rfl) fun _ _ => rfl)
  | rxStatus | rxCount | rxElapsed | encLen | encRead k =>
    exact ignoresChannel_read fun _ _ => rfl
  | rxRead k | frHeader | frType | frCommand | frPlen | frParam k | frChecksum | frTerminator
  | frChkcalc => exact ignoresChannel_unlessReceiving (ignoresChannel_read fun _ _ => rfl)
  | encBuild c params => exact ignoresChannel_encodeFrame c params
  | encGetModuleInfo => exact ignoresChannel_encodeFrame 0x03#8 [0x00#8]
  | encSinglePoll => exact ignoresChannel_encodeFrame 0x22#8 []
  | encStartMultiPoll => exact ignoresChannel_encodeFrame 0x27#8 [0x22#8, 0xFF#8, 0xFF#8]
  | encStopMultiPoll => exact ignoresChannel_encodeFrame 0x28#8 []

/-! ## Reads, and steps that take nothing from the channel -/

theorem encodeCommand_of_readOnly {i : Instr} (h : readOnly i = true) : encodeCommand i = false := by
  cases i with
  | encBuild | encGetModuleInfo | encSinglePoll | encStartMultiPoll | encStopMultiPoll => cases h
  | _ => rfl

theorem CommandEffect.eq_of_readOnly {i : Instr} {s u : State} (he : CommandEffect i s u)
    (h : readOnly i = true) : u = s := by
  cases he with
  | none => rfl
  | start t hi _ => simp [hi, readOnly] at h
  | verdict hi _ => simp [hi, readOnly] at h
  | frame c params hi _ => simp [encodeCommand_of_readOnly h] at hi

theorem exec_readOnly {i : Instr} (s : State) (h : readOnly i = true) :
    ∃ r, exec i s = .next (s.withResponse r) := by
  obtain ⟨u, r, _, he, hx⟩ := exec_cases i s
  exact ⟨r, he.eq_of_readOnly h ▸ hx⟩

theorem validate_responses {s t : State} (hr : s.receiving = false)
    (h : exec .validate s = .next t) : t.responses = [0x00#8, t.vstat] :: s.responses := by
  rw [exec_validate_idle hr, Host.Outcome.next.injEq] at h
  simp [← h]

/-- Only the engine takes bytes from the channel's queue (R46, R47, R101). -/
theorem channel_isPrefix_of_step {s t : State} (h : step s = .next t) (hm : ¬ s.engineMoves) :
    s.channel <+: t.channel := by
  cases step_blockStep h with
  | overflow hm' | append hm' | terminator hm' => exact absurd hm' hm
  | arrival b _ _ h => simp [State.block_eq_iff.1 h]
  | quiet h | start _ _ _ h | verdict _ _ h | build _ _ _ _ _ _ h | elapse _ _ _ h | expire _ _ _ h
  | reset _ h => simp [State.block_eq_iff.1 h]

/-- Settles O41: a read writes nothing before its response, no command looks at the channel, and a step
that shortens the queue is the engine's. -/
theorem readsHaveNoSideEffect : Obligations.ReadsHaveNoSideEffect :=
  ⟨fun _ s h => exec_readOnly s h, exec_ignoresChannel, fun _ _ => validate_responses,
    fun _ _ => channel_isPrefix_of_step⟩

end Sys2Proof.Machine
end

section
/-! PROOFS. The encoding of the host commands (`30_encoding.md` R66, R68): the decoder and the encoder
undo each other on the well-formed commands. -/

namespace Sys2Proof

/-! ## What the rows' operand decoders read -/

theorem decodeOperands_operandBytes {i : Instr} (h : i.wellFormed = true) :
    decodeOperands i.opcode i.operandBytes = .ok i := by
  cases i with
  | rxStart t =>
    exact timeoutOperand_ok.2 ⟨_, _, _, _, rfl, by rw [be32_bytes32]⟩
  | encBuild c params =>
    have hl : params.length ≤ 65535 := by simpa [Instr.wellFormed] using h
    refine buildOperands_ok.2 ⟨c, _, _, params, rfl, ?_, rfl⟩
    rw [be16_bytes16, BitVec.toNat_ofNat]
    omega
  | _ => rfl

/-- Operand bytes that a row's decoder takes are those of a well-formed command of the row. -/
theorem of_decodeOperands_ok {o : Opcode} {args : List Byte} {i : Instr}
    (h : decodeOperands o args = .ok i) :
    o = i.opcode ∧ args = i.operandBytes ∧ i.wellFormed = true := by
  cases o with
  | rxStart =>
    obtain ⟨b3, b2, b1, b0, rfl, rfl⟩ := timeoutOperand_ok.1 h
    exact ⟨rfl, (bytes32_be32 b3 b2 b1 b0).symm, rfl⟩
  | encBuild =>
    obtain ⟨c, hi, lo, params, rfl, hl, rfl⟩ := buildOperands_ok.1 h
    have hmax : params.length ≤ 65535 := by have := (be16 hi lo).isLt; omega
    refine ⟨rfl, ?_, by simpa [Instr.wellFormed] using hmax⟩
    simp [Instr.operandBytes, hl]
  | rxRead | frParam | encRead =>
    obtain ⟨k, rfl, rfl⟩ := oneByteOperand_ok.1 h
    exact ⟨rfl, rfl, rfl⟩
  | _ =>
    obtain ⟨rfl, rfl⟩ := noOperand_ok.1 h
    exact ⟨rfl, rfl, rfl⟩

theorem decodeOperands_ok {o : Opcode} {args : List Byte} {i : Instr} :
    decodeOperands o args = .ok i ↔ o = i.opcode ∧ args = i.operandBytes ∧ i.wellFormed = true := by
  constructor
  · exact of_decodeOperands_ok
  · rintro ⟨rfl, rfl, h⟩
    exact decodeOperands_operandBytes h

/-! ## The decoder on the opcode bytes of the map -/

theorem decode_code (o : Opcode) (args : List Byte) :
    decode (o.code :: args) =
      if o = .encBuild ∧ args.length < 3 then .error .shortBuild else decodeOperands o args := by
  have hbuild : o.code = Opcode.encBuild.code ↔ o = .encBuild :=
    ⟨Opcode.code_injective, congrArg Opcode.code⟩
  simp [decode, hbuild]

/-- The check for a short ENC_BUILD refuses no operand bytes that its row takes. -/
theorem decode_code_ok {o : Opcode} {args : List Byte} {i : Instr} :
    decode (o.code :: args) = .ok i ↔ decodeOperands o args = .ok i := by
  rw [decode_code]
  split
  · next hshort =>
    obtain ⟨rfl, hlen⟩ := hshort
    simp only [reduceCtorEq, false_iff]
    intro h
    obtain ⟨c, hi, lo, params, rfl, _, _⟩ := buildOperands_ok.1 h
    simp at hlen
    omega
  · rfl

theorem decode_illegal {op : Byte} (args : List Byte) (h : Opcode.ofByte op = none) :
    decode (op :: args) = .error .illegalOpcode := by
  have hop : op ≠ Opcode.encBuild.code := by
    rintro rfl
    simp at h
  simp [decode, hop, h]

/-- A byte string decodes to a command exactly when it is the encoding of the command and the command is
well formed (R68, R70). -/
theorem decode_ok_iff {bytes : List Byte} {i : Instr} :
    decode bytes = .ok i ↔ bytes = encode i ∧ i.wellFormed = true := by
  match bytes with
  | [] => simp [decode, encode]
  | op :: args =>
    cases hop : Opcode.ofByte op with
    | none =>
      have hcode : op ≠ i.opcode.code := by
        rintro rfl
        simp at hop
      simp [decode_illegal args hop, encode, hcode]
    | some o =>
      obtain rfl := Opcode.code_of_ofByte hop
      have hcode : o.code = i.opcode.code ↔ o = i.opcode :=
        ⟨Opcode.code_injective, congrArg Opcode.code⟩
      simp [decode_code_ok, decodeOperands_ok, encode, hcode, and_assoc]

theorem decode_encode {i : Instr} (h : i.wellFormed = true) : decode (encode i) = .ok i :=
  decode_ok_iff.2 ⟨rfl, h⟩

/-- Settles O2: each row's operand decoder reads back the operand bytes the encoder writes, the bytes of
`t` and of the count `n` by the byte-order laws. -/
theorem decodeOfEncodeIsTheCommand : Obligations.DecodeOfEncodeIsTheCommand :=
  fun _ => decode_encode

/-- Settles O3: the decoder takes no other bytes than the encoder's, by the inversion of each row's
operand decoder. -/
theorem eachCommandHasOneSpelling : Obligations.EachCommandHasOneSpelling :=
  fun _ _ => decode_ok_iff.1

/-- Settles O1: each word is the encoding of its command. -/
theorem opcodeMapWordsDecode : Obligations.OpcodeMapWordsDecode :=
  ⟨decode_encode (i := .rxStart 100#32) rfl, decode_encode (i := .rxStart 0x12345678#32) rfl,
    decode_encode (i := .rxStatus) rfl, decode_encode (i := .rxRead 22#8) rfl,
    decode_encode (i := .rxElapsed) rfl, decode_encode (i := .validate) rfl,
    decode_encode (i := .frParam 255#8) rfl, decode_encode (i := .frChkcalc) rfl,
    decode_encode (i := .encBuild 0x22#8 []) rfl,
    decode_encode (i := .encBuild 0xFF#8 [0xFF#8, 0xFE#8]) rfl,
    decode_encode (i := .encStartMultiPoll) rfl, decode_encode (i := .encRead 7#8) rfl⟩

end Sys2Proof
end

section
/-! PROOFS. Byte strings that are no command (`30_encoding.md` R69, R70, `60_exceptions.md` R212): an
unlisted opcode, and a listed one with the wrong number of operand bytes. -/

namespace Sys2Proof.Machine

/-! ## The listed opcodes -/

/-- The listed opcodes are the opcode bytes of the map's rows (R68). -/
theorem ofByte_isSome (op : Byte) : (Opcode.ofByte op).isSome = assignedOpcode op := by
  revert op
  decide

theorem ofByte_of_unlisted {op : Byte} (h : assignedOpcode op = false) : Opcode.ofByte op = none := by
  rw [← ofByte_isSome] at h
  simpa using h

theorem exists_code_of_assigned {op : Byte} (h : assignedOpcode op = true) :
    ∃ o : Opcode, o.code = op := by
  rw [← ofByte_isSome, Option.isSome_iff_exists] at h
  obtain ⟨o, ho⟩ := h
  exact ⟨o, Opcode.code_of_ofByte ho⟩

/-- The listed opcodes as numbers (R69). -/
theorem assignedOpcode_iff (op : Byte) :
    assignedOpcode op = true ↔
      (0x10 ≤ op.toNat ∧ op.toNat ≤ 0x14) ∨ (0x20 ≤ op.toNat ∧ op.toNat ≤ 0x28) ∨
        (0x30 ≤ op.toNat ∧ op.toNat ≤ 0x36) := by
  simp [assignedOpcode, BitVec.le_def, or_assoc]

/-! ## The lengths the rows take -/

theorem exists_noOperand_ok (i : Instr) (args : List Byte) :
    (∃ j, noOperand i args = .ok j) ↔ args.length = 0 := by
  simp [noOperand_ok]

theorem exists_oneByteOperand_ok (f : Byte → Instr) (args : List Byte) :
    (∃ j, oneByteOperand f args = .ok j) ↔ args.length = 1 := by
  simp [oneByteOperand_ok, List.length_eq_one_iff]

theorem exists_timeoutOperand_ok (args : List Byte) :
    (∃ j, timeoutOperand args = .ok j) ↔ args.length = 4 := by
  constructor
  · rintro ⟨j, h⟩
    obtain ⟨b3, b2, b1, b0, rfl, _⟩ := timeoutOperand_ok.1 h
    rfl
  · intro h
    match args, h with
    | [b3, b2, b1, b0], _ => exact ⟨_, rfl⟩

theorem exists_buildOperands_ok (args : List Byte) :
    (∃ j, buildOperands args = .ok j) ↔ args.length = 3 + declaredCount args := by
  match args with
  | [] | [_] | [_, _] => simp +arith [buildOperands, declaredCount]
  | c :: hi :: lo :: params =>
    have hcount : declaredCount (c :: hi :: lo :: params) = (be16 hi lo).toNat :=
      (be16_toNat hi lo).symm
    have hok : (∃ j, buildOperands (c :: hi :: lo :: params) = .ok j) ↔
        params.length = (be16 hi lo).toNat := by simp [buildOperands_ok]
    rw [hok, hcount]
    simp only [List.length_cons]
    omega

/-- The operand bytes a row takes are exactly those of the opcode's length (R68, R70). -/
theorem exists_decodeOperands_ok (o : Opcode) (args : List Byte) :
    (∃ i, decodeOperands o args = .ok i) ↔ args.length = operandLength o.code args := by
  cases o with
  | rxStart => exact exists_timeoutOperand_ok args
  | encBuild => exact exists_buildOperands_ok args
  | rxRead | frParam | encRead => exact exists_oneByteOperand_ok _ args
  | _ => exact exists_noOperand_ok _ args

/-! ## Why a listed opcode is refused -/

theorem noOperand_error {i : Instr} {args : List Byte} {e : DecodeError}
    (h : noOperand i args = .error e) : e = .wrongLength := by
  unfold noOperand at h
  split at h <;> cases h
  rfl

theorem oneByteOperand_error {f : Byte → Instr} {args : List Byte} {e : DecodeError}
    (h : oneByteOperand f args = .error e) : e = .wrongLength := by
  unfold oneByteOperand at h
  split at h <;> cases h <;> rfl

theorem timeoutOperand_error {args : List Byte} {e : DecodeError}
    (h : timeoutOperand args = .error e) : e = .wrongLength := by
  unfold timeoutOperand at h
  split at h <;> cases h
  rfl

theorem buildOperands_error {args : List Byte} {e : DecodeError}
    (h : buildOperands args = .error e) : e = .wrongLength := by
  unfold buildOperands at h
  split at h
  · split at h <;> cases h
    rfl
  · cases h
    rfl

theorem decodeOperands_error {o : Opcode} {args : List Byte} {e : DecodeError}
    (h : decodeOperands o args = .error e) : e = .wrongLength := by
  cases o with
  | rxStart => exact timeoutOperand_error h
  | encBuild => exact buildOperands_error h
  | rxRead | frParam | encRead => exact oneByteOperand_error h
  | _ => exact noOperand_error h

/-- A listed opcode is refused for its length alone (R69, R212). -/
theorem decode_code_error {o : Opcode} {args : List Byte} {e : DecodeError}
    (h : decode (o.code :: args) = .error e) : e = .shortBuild ∨ e = .wrongLength := by
  rw [decode_code] at h
  split at h
  · cases h
    exact .inl rfl
  · exact .inr (decodeOperands_error h)

/-! ## What the host is answered -/

/-- A listed opcode whose row does not take the operand bytes answers FORMAT (R70). -/
theorem hostCommand_format {o : Opcode} {args : List Byte}
    (h : args.length ≠ operandLength o.code args) (s : State) :
    hostCommand (o.code :: args) s = .next (s.withResponse [0x04#8]) := by
  cases hd : decode (o.code :: args) with
  | ok i => exact absurd ((exists_decodeOperands_ok o args).1 ⟨i, decode_code_ok.1 hd⟩) h
  | error e =>
    rw [hostCommand_error s hd]
    obtain rfl | rfl := decode_code_error hd <;> rfl

theorem hostCommand_illegal {op : Byte} (args : List Byte) (h : assignedOpcode op = false) (s : State) :
    hostCommand (op :: args) s = .next (s.withResponse [0x03#8]) := by
  rw [hostCommand_error s (decode_illegal args (ofByte_of_unlisted h))]
  rfl

/-- ENC_BUILD's first 3 operand bytes are missing, so its length is wrong whatever its count. -/
theorem hostCommand_shortBuild {args : List Byte} (h : args.length < 3) (s : State) :
    hostCommand (0x30#8 :: args) s = .next (s.withResponse [0x04#8]) := by
  have hlen : operandLength Opcode.encBuild.code args = 3 + declaredCount args := rfl
  exact hostCommand_format (o := .encBuild) (by omega) s

theorem hostCommand_encBuild {c hi lo : Byte} {params : List Byte}
    (h : params.length = hi.toNat * 256 + lo.toNat) (s : State) :
    hostCommand (0x30#8 :: c :: hi :: lo :: params) s = encodeFrame c params s := by
  have hd : decode (Opcode.encBuild.code :: c :: hi :: lo :: params) = .ok (.encBuild c params) :=
    decode_code_ok.2 (buildOperands_ok.2 ⟨c, hi, lo, params, rfl, h.trans (be16_toNat hi lo).symm, rfl⟩)
  rw [← exec_encBuild]
  exact hostCommand_ok s hd

/-- Settles O5: a row takes exactly the operand bytes of its length, and its refusal is never ILLEGAL. -/
theorem wrongLengthsAnswerFormat : Obligations.WrongLengthsAnswerFormat := by
  refine ⟨fun s => hostCommand_error (e := .emptyCommand) s rfl, fun args s h => hostCommand_shortBuild h s,
    fun op args hop => ?_⟩
  obtain ⟨o, rfl⟩ := exists_code_of_assigned hop
  refine ⟨hostCommand_format, fun hlen => ?_⟩
  obtain ⟨i, hi⟩ := (exists_decodeOperands_ok o args).2 hlen
  exact ⟨i, decode_code_ok.2 hi⟩

/-- Settles O4: the unlisted values are the bytes of no row, a row refuses for its length alone, and a
build of too many parameters decodes and is refused by the encoder. -/
theorem unlistedOpcodesAnswerIllegal : Obligations.UnlistedOpcodesAnswerIllegal := by
  refine ⟨fun op args => ⟨fun hunlisted => ?_, fun hlisted herr => ?_⟩, fun c hi lo params s hlen hmax => ?_⟩
  · have hop : assignedOpcode op = false := by
      rw [Bool.eq_false_iff, Ne, assignedOpcode_iff]
      omega
    exact hostCommand_illegal args hop
  · obtain ⟨o, rfl⟩ := exists_code_of_assigned ((assignedOpcode_iff op).2 hlisted)
    obtain h | h := decode_code_error herr <;> cases h
  · rw [hostCommand_encBuild hlen, encodeFrame_range s hmax]

end Sys2Proof.Machine
end

section
/-! PROOFS. One response to a command (`30_encoding.md` R67, `60_exceptions.md` R210), and the steps that
add none. -/

namespace Sys2Proof.Machine

/-! ## What answers a command -/

/-- From `s` the outcome is a state with one more response, led by a status code and with result bytes
only behind OK, and with the environment's and the host's fields as they were (R67, R210). -/
def OneResponse (s : State) (x : Result) : Prop :=
  ∃ t c result, x = .next t ∧ t.responses = (c :: result) :: s.responses ∧ c.toNat ≤ 4 ∧
    (c ≠ 0x00#8 → result = []) ∧ SameEnvironment s t

theorem sameEnvironment_refl (s : State) : SameEnvironment s s := ⟨rfl, rfl, rfl, rfl⟩

/-- An OK response from a state `u` that differs from `s` in registers alone. -/
theorem oneResponse_respond {s u : State} (result : List Byte) (hr : u.responses = s.responses)
    (he : SameEnvironment s u) : OneResponse s (respond result u) :=
  ⟨u.withResponse (0x00#8 :: result), 0x00#8, result, respond_eq result u, by simp [hr], by decide,
    fun h => absurd rfl h, he⟩

theorem oneResponse_read (result : List Byte) (s : State) : OneResponse s (respond result s) :=
  oneResponse_respond result rfl (sameEnvironment_refl s)

theorem oneResponse_raiseStatus (c : Status) (s : State) : OneResponse s (raiseStatus c s) :=
  ⟨s.withResponse [c.code], c.code, [], raiseStatus_eq c s, rfl, by cases c <;> decide, fun _ => rfl,
    sameEnvironment_refl s⟩

theorem oneResponse_unlessReceiving {act : State → Result} {s : State} (h : OneResponse s (act s)) :
    OneResponse s (unlessReceiving act s) := by
  unfold unlessReceiving
  split
  · exact oneResponse_raiseStatus .busy s
  · exact h

theorem oneResponse_encodeFrame (c : Byte) (params : List Byte) (s : State) :
    OneResponse s (encodeFrame c params s) := by
  unfold encodeFrame
  split
  · exact oneResponse_raiseStatus .range s
  · exact oneResponse_respond [] rfl ⟨rfl, rfl, rfl, rfl⟩

theorem oneResponse_exec (i : Instr) (s : State) : OneResponse s (exec i s) := by
  cases i with
  | rxStart t =>
    rw [exec_rxStart]
    exact oneResponse_unlessReceiving (oneResponse_respond [] rfl ⟨rfl, rfl, rfl, rfl⟩)
  | validate =>
    rw [exec_validate]
    exact oneResponse_unlessReceiving (oneResponse_respond _ rfl ⟨rfl, rfl, rfl, rfl⟩)
  | rxStatus | rxCount | rxElapsed | encLen | encRead k => exact oneResponse_read _ s
  | rxRead k | frHeader | frType | frCommand | frPlen | frParam k | frChecksum | frTerminator
  | frChkcalc => exact oneResponse_unlessReceiving (oneResponse_read _ s)
  | encBuild c params => exact oneResponse_encodeFrame c params s
  | encGetModuleInfo => exact oneResponse_encodeFrame 0x03#8 [0x00#8] s
  | encSinglePoll => exact oneResponse_encodeFrame 0x22#8 [] s
  | encStartMultiPoll => exact oneResponse_encodeFrame 0x27#8 [0x22#8, 0xFF#8, 0xFF#8] s
  | encStopMultiPoll => exact oneResponse_encodeFrame 0x28#8 [] s

theorem oneResponse_hostCommand (bytes : List Byte) (s : State) :
    OneResponse s (hostCommand bytes s) := by
  cases hd : decode bytes with
  | ok i =>
    rw [hostCommand_ok s hd]
    exact oneResponse_exec i s
  | error e =>
    rw [hostCommand_error s hd]
    exact oneResponse_raiseStatus (decodeStatus e) s

/-! ## The steps that answer nothing -/

theorem engineStep_responses (s : State) : (engineStep s).responses = s.responses := by
  rcases engineStep_cases s with h | ⟨b, q, _, _, ⟨_, h⟩ | ⟨_, _, h⟩ | ⟨_, _, h⟩⟩ <;>
    simp [h, terminatorStop]

theorem tick_responses (s : State) : (tick s).responses = s.responses := by
  cases hr : s.receiving
  · rw [tick_outside hr]
  · by_cases he : s.elapsed + 1#32 = s.timeout
    · simp [tick_expiry hr he]
    · simp [tick_running hr he]

/-- A response is received on the host's turn, from a command or from a poll of the await loop. -/
theorem hostLine_of_response {s t : State} (h : step s = .next t) (hr : t.responses ≠ s.responses) :
    ∃ rest lines, s.turns = .host :: rest ∧
      ((∃ bytes, s.script = .command bytes :: lines) ∨ s.script = .awaitDone :: lines) := by
  cases step_cases h with
  | rejected rest ht bytes lines hs => exact ⟨rest, lines, ht, .inl ⟨bytes, hs⟩⟩
  | command rest ht bytes lines hs => exact ⟨rest, lines, ht, .inl ⟨bytes, hs⟩⟩
  | await rest ht lines hs => exact ⟨rest, lines, ht, .inr hs⟩
  | engine rest => exact absurd (engineStep_responses (s.withTurns rest)) hr
  | time rest => exact absurd (tick_responses (s.withTurns rest)) hr
  | waits | noLine | transmit | channel | reset => exact absurd rfl hr

theorem step_of_transmit {s : State} {rest : List Turn} {bytes : List Byte} {lines : List HostLine}
    (hturns : s.turns = .host :: rest) (hscript : s.script = .transmit bytes :: lines) :
    step s = .next { s with turns := rest, script := lines, sent := s.sent ++ bytes } := by
  have hs : (s.withTurns rest).script = .transmit bytes :: lines := by simp [hscript]
  rw [step_of_turn hturns, takeTurn, hostTurn, hs]
  rfl

theorem step_of_no_line {s : State} {rest : List Turn} (hturns : s.turns = .host :: rest)
    (hscript : s.script = []) : step s = .next { s with turns := rest } := by
  have hs : (s.withTurns rest).script = [] := by simp [hscript]
  rw [step_of_turn hturns, takeTurn, hostTurn, hs]
  rfl

/-- Settles O43: every command ends in one of the answering operations, and of the other lines and turns
only the await poll answers. -/
theorem oneResponsePerCommand : Obligations.OneResponsePerCommand :=
  ⟨oneResponse_hostCommand, fun _ _ => hostLine_of_response, fun _ _ _ _ => step_of_transmit,
    fun _ _ => step_of_no_line, fun _ => step_of_no_turn⟩

end Sys2Proof.Machine
end

section
/-! PROOFS. The assembler's operands and pseudo-instructions (`30_encoding.md` R80, R81). -/

namespace Sys2Proof.Machine

/-! ## Operands and their fields -/

theorem timeoutNumber_fits {t : Nat} (h : t < 2 ^ 32) :
    timeoutNumber [.number t] = .ok (BitVec.ofNat 32 t) := if_pos h

theorem timeoutNumber_tooLarge {t : Nat} (h : 2 ^ 32 ≤ t) :
    timeoutNumber [.number t] = .error .operandTooLarge := if_neg (Nat.not_lt.mpr h)

theorem indexOperand_fits (f : Byte → Instr) {i : Nat} (h : i < 256) :
    indexOperand f [.number i] = .ok (f (BitVec.ofNat 8 i)) := if_pos h

theorem indexOperand_tooLarge (f : Byte → Instr) {i : Nat} (h : 256 ≤ i) :
    indexOperand f [.number i] = .error .operandTooLarge := if_neg (Nat.not_lt.mpr h)

theorem buildFrom_fits {c : Nat} {ps : List Nat} (hc : c < 256) (hps : ∀ p ∈ ps, p < 256)
    (hlen : ps.length ≤ 65535) :
    buildFrom c ps = .ok (.encBuild (BitVec.ofNat 8 c) (ps.map (BitVec.ofNat 8))) :=
  if_pos ⟨hc, by simpa using hps, hlen⟩

theorem buildFrom_tooLarge {c : Nat} {ps : List Nat}
    (h : 256 ≤ c ∨ (∃ p ∈ ps, 256 ≤ p) ∨ 65535 < ps.length) :
    buildFrom c ps = .error .operandTooLarge := by
  refine if_neg ?_
  rintro ⟨hc, hps, hlen⟩
  have hps : ∀ p ∈ ps, p < 256 := by simpa using hps
  obtain h | ⟨p, hp, h⟩ | h := h
  · omega
  · exact absurd (hps p hp) (Nat.not_lt.mpr h)
  · omega

theorem assembleOperands_rxStart (ops : List Operand) :
    assembleOperands .rxStart ops = (timeoutNumber ops).map .rxStart := rfl

/-- The rows with an index take one number below 256. -/
theorem assembleOperands_index {p : Opcode × (Byte → Instr)}
    (hp : p ∈ [(Opcode.rxRead, Instr.rxRead), (Opcode.frParam, Instr.frParam),
      (Opcode.encRead, Instr.encRead)]) (ops : List Operand) :
    assembleOperands p.1 ops = indexOperand p.2 ops := by
  simp only [List.mem_cons, List.not_mem_nil, or_false] at hp
  obtain rfl | rfl | rfl := hp <;> rfl

/-- Settles O48: each operand form takes its number or list exactly when it fits. -/
theorem assemblerRefusesWhatDoesNotFit : Obligations.AssemblerRefusesWhatDoesNotFit := by
  refine ⟨fun t => ⟨fun h => ?_, fun h => ?_⟩, fun p hp i => ⟨fun h => ?_, fun h => ?_⟩,
    fun c ps => ⟨buildFrom_fits, buildFrom_tooLarge⟩⟩
  · rw [assembleOperands_rxStart, timeoutNumber_fits h]
    rfl
  · rw [assembleOperands_rxStart, timeoutNumber_tooLarge h]
    rfl
  · rw [assembleOperands_index hp, indexOperand_fits p.2 h]
  · rw [assembleOperands_index hp, indexOperand_tooLarge p.2 h]

/-! ## Mnemonics and pseudo-instructions -/

theorem assembleCommand_receive (ops : List Operand) :
    assembleCommand "RECEIVE".toList ops = (timeoutNumber ops).map receiveLines := rfl

theorem assembleCommand_receiveValid (ops : List Operand) :
    assembleCommand "RECEIVE_VALID".toList ops = (timeoutNumber ops).map receiveValidLines := rfl

theorem assembleCommand_encBuild (ops : List Operand) :
    assembleCommand "ENC_BUILD".toList ops =
      (buildFromOperands ops).map fun i => [.command (encode i)] := rfl

/-- Settles O49: each pseudo-instruction is the lines R81 gives it; `ENC_BUILD c` takes the operand path of
`ENC_BUILD c, []`. -/
theorem pseudoInstructionsExpand : Obligations.PseudoInstructionsExpand := by
  refine ⟨fun t h => ?_, fun t h => ?_, fun c h => ⟨?_, ?_⟩⟩
  · rw [assembleCommand_receive, timeoutNumber_fits h]
    rfl
  · rw [assembleCommand_receiveValid, timeoutNumber_fits h]
    rfl
  · rw [assembleCommand_encBuild, assembleCommand_encBuild]
    rfl
  · have hbuild : buildFromOperands [.number c] = .ok (.encBuild (BitVec.ofNat 8 c) []) :=
      buildFrom_fits h (by simp) (by simp)
    rw [assembleCommand_encBuild, hbuild]
    rfl

end Sys2Proof.Machine
end

section
/-! PROOFS. The receiver's host commands (`41_receiver.md` R100, R109 to R112). -/

namespace Sys2Proof.Machine

/-! ## Commands of one and of two bytes -/

theorem oneByteCommand_of_opcode {o : Opcode} {i : Instr} (hok : decodeOperands o [] = .ok i)
    (hlen : ∀ args, operandLength o.code args = 0) : OneByteCommand o.code i :=
  ⟨decode_code_ok.2 hok, fun args s h => hostCommand_format (by rwa [hlen]) s⟩

theorem twoByteCommand_of_opcode {o : Opcode} {f : Byte → Instr}
    (hok : ∀ k, decodeOperands o [k] = .ok (f k)) (hlen : ∀ args, operandLength o.code args = 1) :
    TwoByteCommand o.code f :=
  ⟨fun k => decode_code_ok.2 (hok k), fun args s h => hostCommand_format (by rwa [hlen]) s⟩

/-! ## RX_START -/

theorem decode_rxStart (b3 b2 b1 b0 : Byte) :
    decode [0x10#8, b3, b2, b1, b0] = .ok (.rxStart (be32 b3 b2 b1 b0)) :=
  (decode_code_ok (o := .rxStart)).2 (timeoutOperand_ok.2 ⟨b3, b2, b1, b0, rfl, rfl⟩)

/-- An attempt with an empty window is DONE with TIMEOUT, any other is RECEIVING with NONE (R100). -/
theorem startAttempt_status (t : BitVec 32) (s : State) :
    rxstatState (startAttempt t s).rxstat = (if t = 0#32 then 2#2 else 1#2) ∧
      rxstatRes (startAttempt t s).rxstat = (if t = 0#32 then 2#3 else 0#3) := by
  rw [(startAttempt_fields t s).2.2.1]
  split <;> exact ⟨rxstatState_write _ _ _, rxstatRes_write _ _ _⟩

/-- Settles O8: RX_START's bytes are its row's, BUSY is its first line, and otherwise it leaves what
`startAttempt` writes. -/
theorem rxStartStartsAnAttempt : Obligations.RxStartStartsAnAttempt := by
  refine ⟨decode_rxStart, fun args s h => hostCommand_format (o := .rxStart) h s,
    fun t s => exec_rxStart_busy t, fun t s hr => ⟨_, exec_rxStart_idle t hr, ?_⟩⟩
  obtain ⟨hstate, hres⟩ := startAttempt_status t s
  exact ⟨rfl, rfl, fun k _ => byteAt_clearedBuffer k, rfl, rfl, rfl, hstate, hres, rfl, ⟨rfl, rfl⟩,
    ⟨rfl, rfl, rfl, rfl⟩⟩

/-! ## RX_STATUS, RX_COUNT and RX_ELAPSED -/

/-- The four bytes of a 32-bit value as quotients, the most significant first (R8, R42). -/
theorem bytes32_eq_ofNat (v : BitVec 32) :
    bytes32 v = [BitVec.ofNat 8 (v.toNat / 2 ^ 24), BitVec.ofNat 8 (v.toNat / 2 ^ 16),
      BitVec.ofNat 8 (v.toNat / 2 ^ 8), BitVec.ofNat 8 v.toNat] := by
  simp only [bytes32, BitVec.extractLsb', Nat.shiftRight_eq_div_pow, pow_zero, Nat.div_one]

theorem exec_rxCount_of_zero {s : State} (h : s.rxcnt = 0#7) :
    exec .rxCount s = .next (s.withResponse [0x00#8, 0x00#8]) := by
  rw [exec_rxCount, h, respond_eq]
  rfl

theorem engineStep_elapsed (s : State) : (engineStep s).elapsed = s.elapsed := by
  rcases engineStep_cases s with h | ⟨b, q, _, _, ⟨_, h⟩ | ⟨_, _, h⟩ | ⟨_, _, h⟩⟩ <;>
    simp [h, terminatorStop]

/-- Settles O9: the three commands are reads of one register, RXCNT is 0 by `startAttempt` and by the
invariant on overflows, and only a tick of a running attempt moves ELAPSED. -/
theorem statusCountAndElapsedRead : Obligations.StatusCountAndElapsedRead := by
  refine ⟨oneByteCommand_of_opcode (o := .rxStatus) rfl fun _ => rfl,
    oneByteCommand_of_opcode (o := .rxCount) rfl fun _ => rfl,
    oneByteCommand_of_opcode (o := .rxElapsed) rfl fun _ => rfl,
    fun s => respond_eq _ _, fun s => ?_, fun s => ?_, fun s hi => hi.rxstat_legal,
    fun s hi hres => exec_rxCount_of_zero (hi.overflowed hres),
    fun t s hr => ⟨_, exec_rxStart_idle t hr, exec_rxCount_of_zero rfl⟩,
    fun s hi hres => (hi.timed_out hres).1, fun s => ⟨engineStep_elapsed s, tick_outside⟩⟩
  · rw [exec_rxCount, respond_eq, BitVec.ofNat_toNat]
  · rw [exec_rxElapsed, respond_eq, bytes32_eq_ofNat]

/-! ## RX_READ -/

theorem exec_rxRead_idle (i : Byte) {s : State} (h : s.receiving = false) :
    exec (.rxRead i) s = .next (s.withResponse [0x00#8, storedByte s i.toNat]) := by
  rw [exec_rxRead, unlessReceiving_idle h, respond_eq]

theorem storedByte_of_not_stored {s : State} {i : Nat} (h : s.rxcnt.toNat ≤ i ∨ 64 ≤ i) :
    storedByte s i = 0x00#8 := by
  unfold storedByte
  split
  · exact byteAt_of_le _ (by omega)
  · rfl

/-- While an attempt runs RES is NONE (R109). -/
theorem rxstatRes_of_receiving {s : State} (hi : s.Inv) (hr : s.receiving = true) :
    rxstatRes s.rxstat = 0#3 := by
  rw [rxstat_of_receiving hi hr]
  decide

/-- Settles O10: RX_READ is the guarded read of `storedByte`; after an overflow no attempt runs and no
byte is stored. -/
theorem rxReadReadsTheBuffer : Obligations.RxReadReadsTheBuffer := by
  refine ⟨twoByteCommand_of_opcode (o := .rxRead) (fun _ => rfl) fun _ => rfl,
    fun i s hr => unlessReceiving_busy hr, fun i s hr => exec_rxRead_idle i hr,
    fun i s hr hbeyond => ?_, fun i s hi hres => ?_⟩
  · rw [exec_rxRead_idle i hr, storedByte_of_not_stored hbeyond]
  · have hcnt := hi.overflowed hres
    have hr : s.receiving = false := by
      rw [Bool.eq_false_iff]
      intro h
      simp [rxstatRes_of_receiving hi h] at hres
    rw [exec_rxRead_idle i hr, storedByte_of_not_stored (.inl (by simp [hcnt]))]

end Sys2Proof.Machine
end

section
/-! PROOFS. The receive engine and time, one step at a time (`41_receiver.md` R101 to R105, R108). -/

namespace Sys2Proof.Machine

/-! ## The engine's step -/

theorem step_engine_enabled {s : State} {rest : List Turn} {b : Byte} {q : List Byte}
    (ht : s.turns = .engine :: rest) (hr : s.receiving = true) (hq : s.channel = b :: q) :
    step s = .next (acceptByte b ((s.withTurns rest).withChannel q)) := by
  rw [step_of_turn ht, takeTurn, engineStep_enabled (s := s.withTurns rest) hr hq]

theorem step_engine_plain {s : State} {rest : List Turn} {b : Byte} {q : List Byte}
    (ht : s.turns = .engine :: rest) (hr : s.receiving = true) (hq : s.channel = b :: q)
    (hroom : s.rxcnt.toNat < 63) (hb : b ≠ 0xDD#8) :
    step s = .next (appendByte b ((s.withTurns rest).withChannel q)) := by
  rw [step_engine_enabled ht hr hq, acceptByte_plain (s := (s.withTurns rest).withChannel q) hroom hb]

theorem step_engine_terminator {s : State} {rest : List Turn} {q : List Byte}
    (ht : s.turns = .engine :: rest) (hr : s.receiving = true) (hq : s.channel = 0xDD#8 :: q)
    (hroom : s.rxcnt.toNat < 63) :
    step s = .next (terminatorStop (appendByte 0xDD#8 ((s.withTurns rest).withChannel q))) := by
  rw [step_engine_enabled ht hr hq, acceptByte_terminator (s := (s.withTurns rest).withChannel q) hroom]

theorem step_engine_full {s : State} {rest : List Turn} {b : Byte} {q : List Byte}
    (ht : s.turns = .engine :: rest) (hr : s.receiving = true) (hq : s.channel = b :: q)
    (hfull : 63 ≤ s.rxcnt.toNat) :
    step s = .next (overflow ((s.withTurns rest).withChannel q)) := by
  rw [step_engine_enabled ht hr hq, acceptByte_full (s := (s.withTurns rest).withChannel q) b hfull]

theorem done_terminatorStop (s : State) : (terminatorStop s).done = true := done_completeWith _ s

theorem receiving_terminatorStop (s : State) : (terminatorStop s).receiving = false :=
  receiving_completeWith _ s

theorem rxstatRes_terminatorStop (s : State) :
    rxstatRes (terminatorStop s).rxstat = if frameOK s = true then 1#3 else 4#3 := by
  rw [terminatorStop, (completeWith_fields _ s).2.2.1, rxstatRes_write]
  split <;> rfl

/-- Settles O11: either form of the step with room goes through `appendByte`, which writes RXBUF and RXCNT;
a terminator adds a write of RXSTAT. -/
theorem engineStoresOneByte : Obligations.EngineStoresOneByte := by
  intro s rest b q hturns hr hq hroom
  have hroom' : ((s.withTurns rest).withChannel q).rxcnt.toNat < 63 := hroom
  have hcount := appendByte_count b hroom'
  have hself := (appendByte_byteAt b hroom' s.rxcnt.toNat).trans (if_pos rfl)
  have hother k (hk : k ≠ s.rxcnt.toNat) := (appendByte_byteAt b hroom' k).trans (if_neg hk)
  by_cases hb : b = 0xDD#8
  · subst hb
    exact ⟨_, step_engine_terminator hturns hr hq hroom, rfl, hcount, hself, hother,
      fun h => absurd rfl h, rfl, rfl, rfl, rfl, ⟨rfl, rfl⟩, rfl, rfl, rfl, rfl⟩
  · exact ⟨_, step_engine_plain hturns hr hq hroom hb, rfl, hcount, hself, hother, fun _ => rfl,
      rfl, rfl, rfl, rfl, ⟨rfl, rfl⟩, rfl, rfl, rfl, rfl⟩

/-- Settles O12: TerminatorStop evaluates `FrameOK()` on the bytes with the terminator appended, where
it asks only for a header before it. -/
theorem terminatorEndsTheAttempt : Obligations.TerminatorEndsTheAttempt := by
  intro s rest q hturns hr hq hroom
  have hroom' : ((s.withTurns rest).withChannel q).rxcnt.toNat < 63 := hroom
  have hres := rxstatRes_terminatorStop (appendByte 0xDD#8 ((s.withTurns rest).withChannel q))
  refine ⟨_, step_engine_terminator hturns hr hq hroom, rxstatState_write _ _ _, ?_, ?_,
    appendByte_count 0xDD#8 hroom', rfl, rfl⟩
  · simp only [hres, frameOK_iff]
    rfl
  · simp only [hres, frameOK_append_terminator hroom']
    rfl

/-- Settles O13: with 63 bytes stored the overflow check comes before any look at the byte. -/
theorem sixtyFourthByteOverflows : Obligations.SixtyFourthByteOverflows := by
  intro s rest b q hturns hr hq hfull
  exact ⟨_, step_engine_full hturns hr hq hfull, rfl, rfl, fun k _ => byteAt_clearedBuffer k, rfl,
    rxstatState_write _ _ _, rxstatRes_write _ _ _, rfl, rfl, rfl, rfl, ⟨rfl, rfl⟩, rfl, rfl, rfl, rfl⟩

/-- Settles O14: where it is not enabled the engine's turn leaves the state as it is. -/
theorem engineWaitsUnlessEnabled : Obligations.EngineWaitsUnlessEnabled := by
  intro s rest hturns hoff
  have hoff' : (s.withTurns rest).receiving = false ∨ (s.withTurns rest).channel = [] :=
    hoff.imp_right List.eq_nil_of_length_eq_zero
  rw [step_of_turn hturns, takeTurn, engineStep_disabled hoff']
  rfl

/-! ## The tick -/

theorem step_time {s : State} {rest : List Turn} (ht : s.turns = .time :: rest) :
    step s = .next (tick (s.withTurns rest)) := by
  rw [step_of_turn ht, takeTurn]

/-- The tick that ends the window (R105). -/
theorem step_expiry {s : State} {rest : List Turn} (ht : s.turns = .time :: rest)
    (hr : s.receiving = true) (he : s.elapsed + 1#32 = s.timeout) :
    step s = .next (completeWith (if frameOK s then .frame else .timeout)
      ((s.withTurns rest).withElapsed s.timeout)) := by
  rw [step_time ht, tick_expiry (s := s.withTurns rest) hr he]
  simp only [State.withTurns_fields, State.withTurns_reads, he]

/-- Settles O15: outside an attempt, within the window and at its end, by the tick's three cases. -/
theorem tickAdvancesTheTimer : Obligations.TickAdvancesTheTimer := by
  intro s rest hturns
  refine ⟨fun hr => ?_, fun hr he => ?_, fun hr he => ⟨_, step_expiry hturns hr he, ?_, ?_⟩⟩
  · rw [step_time hturns, tick_outside (s := s.withTurns rest) hr]
    rfl
  · rw [step_time hturns, tick_running (s := s.withTurns rest) hr he]
    rfl
  · exact rxstatState_write _ _ _
  · simp only [rxstatRes_write, ← frameOK_iff]
    split <;> rfl

/-- Settles O16: while an attempt runs no terminator is stored, so `FrameOK()` is false at expiry. -/
theorem expiryIsATimeout : Obligations.ExpiryIsATimeout := by
  intro s rest hturns hi hr he
  have hframe : frameOK s = false := frameOK_of_no_terminator (hi.no_terminator hr)
  refine ⟨_, step_expiry hturns hr he, done_completeWith _ _, ?_, rfl, rfl, rfl⟩
  simp only [completeWith_fields, rxstatRes_write, hframe]
  rfl

/-! ## What a step takes from the channel -/

/-- The queue after a step in which the engine moves (R101, R103). -/
theorem channel_of_engineMoves {s t : State} (h : step s = .next t) (hm : s.engineMoves) :
    (s.rxcnt.toNat < 63 → t.channel = s.channel.tail) ∧ (63 ≤ s.rxcnt.toNat → t.channel = []) := by
  obtain ⟨⟨rest, hturns⟩, hr, hne⟩ := hm
  obtain ⟨b, q, hq⟩ := List.exists_cons_of_ne_nil hne
  refine ⟨fun hroom => ?_, fun hfull => ?_⟩
  · obtain ⟨t', hst, hq', -⟩ := engineStoresOneByte s rest b q hturns hr hq hroom
    rw [hst, Host.Outcome.next.injEq] at h
    rw [← h, hq', hq, List.tail_cons]
  · obtain ⟨t', hst, hq', -⟩ := sixtyFourthByteOverflows s rest b q hturns hr hq hfull
    rw [hst, Host.Outcome.next.injEq] at h
    rw [← h, hq']

/-- No turn but the channel's lengthens the queue (R48). -/
theorem channel_length_le_of_step {s t : State} (h : step s = .next t)
    (hc : ∀ b rest, s.turns ≠ .channel b :: rest) : t.channel.length ≤ s.channel.length := by
  by_cases hm : s.engineMoves
  · obtain ⟨hroom, hfull⟩ := channel_of_engineMoves h hm
    by_cases hcnt : s.rxcnt.toNat < 63
    · simp [hroom hcnt]
    · simp [hfull (by omega)]
  · obtain ⟨_, _, _, _, _, _, hchannel⟩ := registersAreWrittenOnlyByTheirRules s t h
    by_contra hlt
    obtain hm' | ⟨b, rest, ht⟩ := hchannel (by rintro hq; simp [hq] at hlt)
    · exact hm hm'
    · exact hc b rest ht

theorem fitsDepth_of_length_le {cap : Option Nat} {q r : List Byte} (h : r.length ≤ q.length)
    (hq : fitsDepth cap q = true) : fitsDepth cap r = true := by
  cases cap with
  | none => rfl
  | some n =>
    simp only [fitsDepth, decide_eq_true_eq] at *
    omega

/-- Settles O45: the engine takes one byte or, on an overflow, all; every other step only appends, and
only the channel's own step does. -/
theorem onlyTheEngineTakesChannelBytes : Obligations.OnlyTheEngineTakesChannelBytes :=
  fun _ _ hst => ⟨channel_isPrefix_of_step hst, fun hm => (channel_of_engineMoves hst hm).1,
    fun hm => (channel_of_engineMoves hst hm).2,
    fun _ hfits hc => fitsDepth_of_length_le (channel_length_le_of_step hst hc) hfits⟩

end Sys2Proof.Machine
end

section
/-! PROOFS. The bytes of an attempt under every interleaving (`41_receiver.md` R101 to R107): the stored
bytes, the queued ones and those that arrive are one stream, and an attempt stores its first bytes. -/

namespace Sys2Proof.Machine

/-! ## The stored bytes as a list -/

theorem storedBytes_length (s : State) : (storedBytes s).length = s.rxcnt.toNat := by
  simp [storedBytes]

theorem storedBytes_congr {s t : State} (hbuf : t.rxbuf = s.rxbuf) (hcnt : t.rxcnt = s.rxcnt) :
    storedBytes t = storedBytes s := by
  rw [storedBytes, storedBytes, hbuf, hcnt]

theorem storedBytes_of_zero {s : State} (h : s.rxcnt = 0#7) : storedBytes s = [] := by
  simp [storedBytes, h]

theorem byteAt_eq_getD_storedBytes {s : State} {k : Nat} (h : k < s.rxcnt.toNat) (d : Byte) :
    byteAt s.rxbuf k = (storedBytes s).getD k d := by
  simp [storedBytes, List.getD, h]

theorem terminator_notMem_storedBytes {s : State} (hi : s.Inv) (hr : s.receiving = true) :
    0xDD#8 ∉ storedBytes s := by
  simp only [storedBytes, List.mem_map, List.mem_range, not_exists, not_and]
  exact hi.no_terminator hr

theorem head_storedBytes_iff (s : State) (b : Byte) :
    (storedBytes s).head? = some b ↔ 0 < s.rxcnt.toNat ∧ byteAt s.rxbuf 0 = b := by
  rcases Nat.eq_zero_or_pos s.rxcnt.toNat with h | h
  · simp [storedBytes, h]
  · simp [storedBytes, List.head?_range, h.ne', h]

/-- R104's result in terms of the bytes before the terminator: FRAME exactly when a header came first. -/
theorem rxstatRes_terminatorStop_append {s : State} (h : s.rxcnt.toNat < 63) :
    rxstatRes (terminatorStop (appendByte 0xDD#8 s)).rxstat =
      if (storedBytes s).head? = some 0xAA#8 then 1#3 else 4#3 := by
  simp only [rxstatRes_terminatorStop, frameOK_append_terminator h, head_storedBytes_iff]

/-! ## What a step does to the stream of a running attempt -/

theorem arrivals_take_one_of_turn {s : State} {turn : Turn} {rest : List Turn}
    (h : s.turns = turn :: rest) : arrivals (s.turns.take 1) = arrival turn := by
  simp [h, arrivals]

/-- Only the channel's turn brings a byte (R48). -/
theorem arrivals_take_one_cases (s : State) :
    (∃ b rest, s.turns = .channel b :: rest) ∨ arrivals (s.turns.take 1) = [] := by
  cases h : s.turns with
  | nil => exact .inr rfl
  | cons turn rest =>
    cases turn with
    | channel b => exact .inl ⟨b, rest, rfl⟩
    | host | engine | time | reset => exact .inr rfl

/-- What a step that is no reset does to a running attempt and its queue: it stores nothing, or stores the
oldest byte and goes on, or stores a terminator and completes, or overflows. -/
inductive AttemptStep (s t : State) : Prop
  | keeps (hb : storedBytes t = storedBytes s)
      (hq : t.channel = s.channel ++ arrivals (s.turns.take 1))
      (hres : rxstatRes t.rxstat = 0#3 ∨ rxstatRes t.rxstat = 2#3)
  | stores (b : Byte) (hb : storedBytes t = storedBytes s ++ [b]) (hq : s.channel = b :: t.channel)
      (ha : arrivals (s.turns.take 1) = []) (hres : rxstatRes t.rxstat = 0#3)
  | completes (hb : storedBytes t = storedBytes s ++ [0xDD#8]) (hq : s.channel = 0xDD#8 :: t.channel)
      (ha : arrivals (s.turns.take 1) = [])
      (hres : rxstatRes t.rxstat = if (storedBytes s).head? = some 0xAA#8 then 1#3 else 4#3)
  | overflows (hfull : 63 ≤ s.rxcnt.toNat) (hne : s.channel ≠ []) (hq : t.channel = [])
      (hres : rxstatRes t.rxstat = 3#3)

theorem attemptStep_of_quiet {s t : State} (hbuf : t.rxbuf = s.rxbuf) (hcnt : t.rxcnt = s.rxcnt)
    (hq : t.channel = s.channel) (ha : arrivals (s.turns.take 1) = [])
    (hres : rxstatRes t.rxstat = 0#3 ∨ rxstatRes t.rxstat = 2#3) : AttemptStep s t :=
  .keeps (storedBytes_congr hbuf hcnt) (by rw [hq, ha, List.append_nil]) hres

theorem attemptStep_of_step {s t : State} (hi : s.Inv) (hr : s.receiving = true)
    (hst : step s = .next t) (hn : ¬ s.resets) : AttemptStep s t := by
  have hnone := rxstatRes_of_receiving hi hr
  obtain ⟨b, rest, hturns⟩ | ha := arrivals_take_one_cases s
  · rw [channelAppendsToTheTail s rest b hturns, Host.Outcome.next.injEq] at hst
    subst hst
    exact .keeps rfl (by rw [arrivals_take_one_of_turn hturns]; rfl) (.inl hnone)
  · cases step_blockStep hst with
    | quiet h | build _ _ _ _ _ _ h | elapse _ _ _ h =>
      obtain ⟨hbuf, hcnt, hstat, _, _, _, _, _, _, hq⟩ := State.block_eq_iff.1 h
      exact attemptStep_of_quiet hbuf hcnt hq ha (.inl (hstat ▸ hnone))
    | start _ _ hs | verdict _ hs => simp [hs] at hr
    | overflow hm hfull h =>
      obtain ⟨_, _, hne⟩ := hm
      obtain ⟨_, _, hstat, _, _, _, _, _, _, hq⟩ := State.block_eq_iff.1 h
      exact .overflows hfull hne hq (by rw [hstat]; exact rxstatRes_write _ _ _)
    | append _ b q hq hroom _ h =>
      obtain ⟨hbuf, hcnt, hstat, _, _, _, _, _, _, hq'⟩ := State.block_eq_iff.1 h
      refine .stores b ?_ (hq.trans (congrArg _ hq'.symm)) ha (hstat ▸ hnone)
      exact (storedBytes_congr hbuf hcnt).trans (storedBytes_appendByte (s := s.withChannel q) b hroom)
    | terminator _ q hq hroom h =>
      obtain ⟨hbuf, hcnt, hstat, _, _, _, _, _, _, hq'⟩ := State.block_eq_iff.1 h
      refine .completes ?_ (hq.trans (congrArg _ hq'.symm)) ha ?_
      · exact (storedBytes_congr hbuf hcnt).trans
          (storedBytes_appendByte (s := s.withChannel q) 0xDD#8 hroom)
      · rw [hstat]
        exact rxstatRes_terminatorStop_append (s := s.withChannel q) hroom
    | arrival b rest hturns => simp [hturns, arrivals, arrival] at ha
    | expire _ _ _ h =>
      obtain ⟨hbuf, hcnt, hstat, _, _, _, _, _, _, hq⟩ := State.block_eq_iff.1 h
      refine attemptStep_of_quiet hbuf hcnt hq ha (.inr ?_)
      rw [hstat, frameOK_of_no_terminator (hi.no_terminator hr)]
      exact rxstatRes_write _ _ _
    | reset ht => exact absurd ht hn

/-- Unless it overflows, a step only moves the border between the stored and the queued bytes. -/
theorem AttemptStep.stream_eq {s t : State} (h : AttemptStep s t) (hres : rxstatRes t.rxstat ≠ 3#3) :
    storedBytes t ++ t.channel = storedBytes s ++ s.channel ++ arrivals (s.turns.take 1) := by
  cases h with
  | keeps hb hq _ => rw [hb, hq, List.append_assoc]
  | stores b hb hq ha _ => simp [hb, hq, ha]
  | completes hb hq ha _ => simp [hb, hq, ha]
  | overflows _ _ _ h => exact absurd h hres

/-- Settles O50: the three kinds of step that do not overflow leave the stream as it is. -/
theorem stepKeepsTheByteStream : Obligations.StepKeepsTheByteStream :=
  fun _ _ hi hr hst hn => (attemptStep_of_step hi hr hst hn).stream_eq

/-! ## A whole attempt -/

/-- The stream of an attempt over the next `k` turns: the bytes stored so far, those queued, and those that
arrive. -/
def stream (k : Nat) (s : State) : List Byte :=
  storedBytes s ++ s.channel ++ arrivals (s.turns.take k)

/-- What `t` holds is what an attempt takes from a stream: its first bytes, through the first terminator if
one ended it, and nothing after an overflow (R103, R104, R107). -/
def TakesFrom (bytes : List Byte) (t : State) : Prop :=
  (rxstatRes t.rxstat ≠ 3#3 → storedBytes t ++ t.channel = bytes) ∧
  (rxstatRes t.rxstat = 1#3 ∨ rxstatRes t.rxstat = 4#3 →
    ∃ pre, storedBytes t = pre ++ [0xDD#8] ∧ 0xDD#8 ∉ pre ∧
      (rxstatRes t.rxstat = 1#3 ↔ pre.head? = some 0xAA#8)) ∧
  (rxstatRes t.rxstat = 3#3 → t.channel = [] ∧ 64 ≤ bytes.length ∧ 0xDD#8 ∉ bytes.take 63)

/-- With no result yet there is only the stream to show, and the same after a timeout. -/
theorem takesFrom_of_no_stop {bytes : List Byte} {t : State} (h : storedBytes t ++ t.channel = bytes)
    (hres : rxstatRes t.rxstat = 0#3 ∨ rxstatRes t.rxstat = 2#3) : TakesFrom bytes t := by
  refine ⟨fun _ => h, fun hend => ?_, fun hover => ?_⟩
  · obtain hres | hres := hres <;> simp [hres] at hend
  · obtain hres | hres := hres <;> simp [hres] at hover

/-- An overflow finds 63 stored bytes, none of them a terminator, and a queued one behind them. -/
theorem overflowed_stream {s : State} (hi : s.Inv) (hr : s.receiving = true)
    (hfull : 63 ≤ s.rxcnt.toNat) (hne : s.channel ≠ []) :
    64 ≤ (stream 1 s).length ∧ 0xDD#8 ∉ (stream 1 s).take 63 := by
  have hlen : (storedBytes s).length = 63 := by
    rw [storedBytes_length]
    exact le_antisymm hi.rxcnt_le hfull
  have hpos := List.length_pos_iff.2 hne
  constructor
  · simp only [stream, List.length_append, hlen]
    omega
  · rw [stream, List.append_assoc, List.take_left' hlen]
    exact terminator_notMem_storedBytes hi hr

theorem takesFrom_of_step {s t : State} (hi : s.Inv) (hr : s.receiving = true)
    (hst : step s = .next t) (hn : ¬ s.resets) : TakesFrom (stream 1 s) t := by
  have ha := attemptStep_of_step hi hr hst hn
  have hstream := ha.stream_eq
  cases ha with
  | keeps _ _ hres => exact takesFrom_of_no_stop (hstream (by rcases hres with h | h <;> simp [h])) hres
  | stores b _ _ _ hres => exact takesFrom_of_no_stop (hstream (by simp [hres])) (.inl hres)
  | completes hb _ _ hres =>
    have hclean := terminator_notMem_storedBytes hi hr
    refine ⟨hstream, fun _ => ⟨storedBytes s, hb, hclean, ?_⟩, fun h => ?_⟩
    · rw [hres]
      split <;> simp [*]
    · rw [hres] at h
      split at h <;> simp at h
  | overflows hfull hne hq hres =>
    exact ⟨fun h => absurd hres h, by simp [hres], fun _ => ⟨hq, overflowed_stream hi hr hfull hne⟩⟩

/-- While the attempt goes on, a step leaves the stream to come as it is. -/
theorem stream_of_step {s u : State} {k : Nat} (hi : s.Inv) (hr : s.receiving = true)
    (hst : step s = .next u) (hn : ¬ s.resets) (hu : u.receiving = true) :
    stream k u = stream (k + 1) s := by
  have hnone := rxstatRes_of_receiving (stepKeepsTheInvariants s u hi hst) hu
  have hstep := (attemptStep_of_step hi hr hst hn).stream_eq (by simp [hnone])
  rw [stream, hstep, step_turns hst, stream, List.append_assoc, Nat.add_comm k 1, List.take_add]
  simp [arrivals]

theorem not_resets_of_notMem_take {s : State} {k : Nat} (h : .reset ∉ s.turns.take (k + 1)) :
    ¬ s.resets := by
  rintro ⟨rest, ht⟩
  simp [ht] at h

/-- An attempt takes from its stream, along any run in which it is running up to the last step. -/
theorem takesFrom_of_run {k : Nat} {s t : State} (hi : s.Inv) (hr : s.receiving = true)
    (hn : .reset ∉ s.turns.take k) (hrun : runsTo k s t)
    (hon : ∀ j u, j < k → runsTo j s u → u.receiving = true) : TakesFrom (stream k s) t := by
  induction k generalizing s with
  | zero =>
    obtain rfl : t = s := hrun
    exact takesFrom_of_no_stop (by simp [stream, arrivals]) (.inl (rxstatRes_of_receiving hi hr))
  | succ k ih =>
    obtain ⟨u, hst, hrun⟩ := hrun
    have hn1 := not_resets_of_notMem_take hn
    cases k with
    | zero =>
      obtain rfl : t = u := hrun
      exact takesFrom_of_step hi hr hst hn1
    | succ k =>
      have hu : u.receiving = true := hon 1 u (by omega) ⟨u, hst, rfl⟩
      have hnu : .reset ∉ u.turns.take (k + 1) := by
        rw [step_turns hst, List.take_drop, Nat.add_comm 1]
        exact fun h => hn (List.mem_of_mem_drop h)
      rw [← stream_of_step hi hr hst hn1 hu]
      exact ih (stepKeepsTheInvariants s u hi hst) hu hnu hrun fun j v hj hv =>
        hon (j + 1) v (by omega) ⟨u, hst, hv⟩

/-- Settles O51: up to its last step an attempt's stream is the same from every moment on, and the last step
ends it as `takesFrom_of_step` says. -/
theorem attemptsTakeAPrefixOfTheirStream : Obligations.AttemptsTakeAPrefixOfTheirStream :=
  fun _ _ _ hi hr hn hrun hon => takesFrom_of_run hi hr hn hrun hon

/-! ## A run of engine turns -/

theorem engine_step_stores {s : State} {rest : List Turn} {b : Byte} {q : List Byte}
    (hturns : s.turns = .engine :: rest) (hr : s.receiving = true) (hq : s.channel = b :: q)
    (hroom : s.rxcnt.toNat < 63) (hb : b ≠ 0xDD#8) :
    ∃ u, step s = .next u ∧ storedBytes u = storedBytes s ++ [b] ∧ u.rxstat = s.rxstat ∧
      u.timeout = s.timeout ∧ u.elapsed = s.elapsed ∧ u.channel = q ∧ u.turns = rest :=
  ⟨appendByte b ((s.withTurns rest).withChannel q),
    step_engine_plain hturns hr hq hroom hb,
    storedBytes_appendByte (s := (s.withTurns rest).withChannel q) b hroom, rfl, rfl, rfl, rfl, rfl⟩

theorem engine_step_completes {s : State} {rest : List Turn} {q : List Byte}
    (hturns : s.turns = .engine :: rest) (hr : s.receiving = true) (hq : s.channel = 0xDD#8 :: q)
    (hroom : s.rxcnt.toNat < 63) :
    ∃ t, step s = .next t ∧ storedBytes t = storedBytes s ++ [0xDD#8] ∧ t.receiving = false ∧
      t.done = true ∧
      rxstatRes t.rxstat = (if (storedBytes s).head? = some 0xAA#8 then 1#3 else 4#3) ∧
      t.channel = q ∧ t.elapsed = s.elapsed ∧ t.turns = rest :=
  ⟨terminatorStop (appendByte 0xDD#8 ((s.withTurns rest).withChannel q)),
    step_engine_terminator hturns hr hq hroom,
    storedBytes_appendByte (s := (s.withTurns rest).withChannel q) 0xDD#8 hroom,
    receiving_terminatorStop _, done_terminatorStop _,
    rxstatRes_terminatorStop_append (s := (s.withTurns rest).withChannel q) hroom, rfl, rfl, rfl⟩

/-- The engine alone moves bytes that hold no terminator from the queue to the buffer while there is room
(R101, R102). No invariant is asked of the state. -/
theorem engine_run_stores {s : State} {pre q : List Byte} {more : List Turn}
    (hr : s.receiving = true) (hq : s.channel = pre ++ q) (hpre : 0xDD#8 ∉ pre)
    (hroom : s.rxcnt.toNat + pre.length ≤ 63)
    (hturns : s.turns = List.replicate pre.length .engine ++ more) :
    ∃ u, runsTo pre.length s u ∧ storedBytes u = storedBytes s ++ pre ∧ u.rxstat = s.rxstat ∧
      u.timeout = s.timeout ∧ u.elapsed = s.elapsed ∧ u.channel = q ∧ u.turns = more := by
  induction pre generalizing s with
  | nil => exact ⟨s, rfl, by simp, rfl, rfl, rfl, hq, hturns⟩
  | cons b pre ih =>
    have hb : b ≠ 0xDD#8 := fun h => hpre (h ▸ List.mem_cons_self)
    rw [List.length_cons] at hroom
    obtain ⟨v, hst, hbytes, hstat, htmo, hela, hqv, htv⟩ :=
      engine_step_stores hturns hr hq (by omega) hb
    have hcount : v.rxcnt.toNat = s.rxcnt.toNat + 1 := by
      rw [← storedBytes_length, hbytes, List.length_append, storedBytes_length, List.length_singleton]
    obtain ⟨u, hrun, hbytes', hstat', htmo', hela', hrest⟩ := ih (s := v)
      (by rwa [receiving_eq, hstat]) hqv (fun h => hpre (List.mem_cons_of_mem b h)) (by omega) htv
    exact ⟨u, ⟨v, hst, hrun⟩, by rw [hbytes', hbytes, List.append_assoc]; rfl, hstat'.trans hstat,
      htmo'.trans htmo, hela'.trans hela, hrest⟩

/-- Settles O18: the engine stores the bytes before the terminator one by one, and the terminator's step
completes the attempt. -/
theorem attemptTakesThroughTheFirstTerminator : Obligations.AttemptTakesThroughTheFirstTerminator := by
  intro s pre q more hr hzero hq hpre hlen hturns
  rw [List.replicate_succ', List.append_assoc] at hturns
  obtain ⟨u, hrun, hbytes, hstat, -, hela, hqu, htu⟩ :=
    engine_run_stores hr hq hpre (by simp [hzero]; omega) hturns
  rw [storedBytes_of_zero hzero, List.nil_append] at hbytes
  have hroom : u.rxcnt.toNat < 63 := by rwa [← storedBytes_length, hbytes]
  obtain ⟨t, hst, hstored, hrt, hdone, hres, hqt, helat, htt⟩ :=
    engine_step_completes htu (by rwa [receiving_eq, hstat]) hqu hroom
  rw [hbytes] at hstored hres
  have hcount : t.rxcnt.toNat = pre.length + 1 := by
    rw [← storedBytes_length, hstored, List.length_append, List.length_singleton]
  exact ⟨t, runsTo_add pre.length 1 hrun ⟨t, hst, rfl⟩, hrt, hdone, hres, hcount,
    fun k hk => hstored ▸ byteAt_eq_getD_storedBytes (hcount ▸ hk) _, hqt, helat.trans hela, htt⟩

end Sys2Proof.Machine
end

section
/-! PROOFS. The verdict is never stale (`42_validator.md` R143): a step that could change what VALIDATE
finds leaves VSTAT and CHKCALC clear, and any other leaves the verdict as it is or makes it anew. -/

namespace Sys2Proof.Machine

/-- A cleared verdict claims nothing of the buffer. -/
theorem verdictCurrent_of_cleared {s : State} (hv : s.vstat = 0x00#8) (hc : s.chkcalc = 0x00#8) :
    s.VerdictCurrent where
  cleared _ := hv
  current h := by simp [hv, vstatChecked] at h
  unchecked _ := by simp [hv, hc, vstatValid, vstatReason]

/-- While an attempt runs CHKCALC is clear, as VSTAT is. -/
theorem State.VerdictCurrent.chkcalc_of_receiving {s : State} (hv : s.VerdictCurrent)
    (hr : s.receiving = true) : s.chkcalc = 0x00#8 := by
  obtain ⟨_, _, hc⟩ := hv.unchecked (by rw [hv.cleared hr]; rfl)
  exact hc

/-- A step of a running attempt may write what VALIDATE reads: it leaves the cleared verdict. -/
theorem State.VerdictCurrent.of_receiving {s t : State} (hv : s.VerdictCurrent)
    (hr : s.receiving = true) (hvstat : t.vstat = s.vstat) (hchk : t.chkcalc = s.chkcalc) :
    t.VerdictCurrent :=
  verdictCurrent_of_cleared (hvstat.trans (hv.cleared hr)) (hchk.trans (hv.chkcalc_of_receiving hr))

/-- VALIDATE's verdict is current when it is made. -/
theorem verdictCurrent_recordVerdict {s : State} (hr : s.receiving = false) :
    (recordVerdict s).VerdictCurrent := by
  have hjudge : judge (recordVerdict s) = judge s := judge_congr rfl rfl
  have hrec : (recordVerdict s).receiving = false := hr
  constructor <;> simp [hjudge, hrec]

/-- The verdict reads the block alone. -/
theorem State.VerdictCurrent.of_block {s t : State} (hv : s.VerdictCurrent) (h : t.block = s.block) :
    t.VerdictCurrent := by
  obtain ⟨hbuf, hcnt, hstat, htmo, hela, hvstat, hchk, _⟩ := State.block_eq_iff.1 h
  exact hv.congr ⟨hbuf, hcnt, hstat, htmo, hela, hvstat, hchk⟩

/-- Settles O25: VALIDATE makes the verdict anew, RX_START and a reset clear it, the engine and a tick
move only while it is clear, and every other operation leaves the receiver as it is. -/
theorem stepKeepsTheVerdictCurrent : Obligations.StepKeepsTheVerdictCurrent := by
  intro s t hv hst
  cases step_blockStep hst with
  | quiet h => exact hv.of_block h
  | start w _ _ h =>
    have hstart : (startAttempt w s).VerdictCurrent := verdictCurrent_of_cleared rfl rfl
    exact hstart.of_block h
  | verdict _ hs h => exact (verdictCurrent_recordVerdict hs).of_block h
  | build _ _ _ c params _ h =>
    have hbuild : (recordFrame c params s).VerdictCurrent := hv.congr ⟨rfl, rfl, rfl, rfl, rfl, rfl, rfl⟩
    exact hbuild.of_block h
  | arrival b _ _ h =>
    have happend : (chanAppend b s).VerdictCurrent := hv.congr ⟨rfl, rfl, rfl, rfl, rfl, rfl, rfl⟩
    exact happend.of_block h
  | overflow hm _ h | append hm _ _ _ _ _ h | terminator hm _ _ _ h =>
    obtain ⟨_, hr, _⟩ := hm
    obtain ⟨_, _, _, _, _, hvstat, hchk, _⟩ := State.block_eq_iff.1 h
    exact hv.of_receiving hr hvstat hchk
  | elapse _ hr _ h | expire _ hr _ h =>
    obtain ⟨_, _, _, _, _, hvstat, hchk, _⟩ := State.block_eq_iff.1 h
    exact hv.of_receiving hr hvstat hchk
  | reset _ h =>
    have hreset : (resetBlock s).VerdictCurrent := verdictCurrent_of_cleared rfl rfl
    exact hreset.of_block h

end Sys2Proof.Machine
end

section
/-! PROOFS. What VALIDATE finds (`42_validator.md` R140 to R142): the checks over the frame's parameter
length and checksum as numbers, the bytes they read, and when a stored frame is valid. -/

namespace Sys2Proof.Machine

/-! ## The checks -/

theorem framePlen_toNat (s : State) : (framePlen s).toNat = storedPlen s := by
  unfold framePlen storedPlen
  split
  · exact be16_toNat _ _
  · rfl

theorem checksum8_eq_storedChecksum (s : State) :
    checksum8 s.rxbuf (storedPlen s) = storedChecksum s := by
  unfold checksum8 sumMod256 checksummedBytes storedChecksum
  rw [List.map_map]
  rfl

/-- VALIDATE's five checks on the numbers of R61 and R62. -/
theorem judge_eq (s : State) :
    judge s =
      if s.rxcnt.toNat < 7 then (.short, 0x00#8)
      else if byteAt s.rxbuf 0 ≠ 0xAA#8 then (.header, 0x00#8)
      else if 7 + storedPlen s ≠ s.rxcnt.toNat then (.length, 0x00#8)
      else if byteAt s.rxbuf (6 + storedPlen s) ≠ 0xDD#8 then (.terminator, 0x00#8)
      else (if storedChecksum s = byteAt s.rxbuf (5 + storedPlen s) then .ok else .checksum,
        storedChecksum s) := by
  simp only [judge, framePlen_toNat, checksum8_eq_storedChecksum]

/-- CHKCALC is generated by the last check alone (R17). -/
theorem judge_chkcalc_of_stopped {s : State} (hok : (judge s).1 ≠ .ok)
    (hchk : (judge s).1 ≠ .checksum) : (judge s).2 = 0x00#8 := by
  rw [judge_eq] at hok hchk ⊢
  split_ifs at hok hchk ⊢
  exacts [rfl, rfl, rfl, rfl, absurd rfl hok, absurd rfl hchk]

/-- A stored frame that passes every check (R140). -/
structure State.ValidFrame (s : State) : Prop where
  long : 7 ≤ s.rxcnt.toNat
  header : byteAt s.rxbuf 0 = 0xAA#8
  length : 7 + storedPlen s = s.rxcnt.toNat
  terminator : byteAt s.rxbuf (6 + storedPlen s) = 0xDD#8
  checksum : storedChecksum s = byteAt s.rxbuf (5 + storedPlen s)

theorem judge_ok_iff (s : State) : (judge s).1 = .ok ↔ s.ValidFrame := by
  rw [judge_eq]
  constructor
  · intro h
    split_ifs at h with hlong hheader hlength hterm hsum
    exact ⟨by omega, by simpa using hheader, by simpa using hlength, by simpa using hterm, hsum⟩
  · rintro ⟨hlong, hheader, hlength, hterm, hsum⟩
    simp [Nat.not_lt.2 hlong, hheader, hlength, hterm, hsum]

/-! ## The bytes the checks read -/

theorem storedPlen_congr {s t : State} (hcnt : t.rxcnt = s.rxcnt)
    (hbuf : ∀ k, k < s.rxcnt.toNat → byteAt t.rxbuf k = byteAt s.rxbuf k) :
    storedPlen t = storedPlen s := by
  unfold storedPlen
  rw [hcnt]
  split
  · rw [hbuf 3 (by omega), hbuf 4 (by omega)]
  · rfl

theorem storedChecksum_congr {s t : State} (hplen : storedPlen t = storedPlen s)
    (hbuf : ∀ k, 1 ≤ k → k < 5 + storedPlen s → byteAt t.rxbuf k = byteAt s.rxbuf k) :
    storedChecksum t = storedChecksum s := by
  unfold storedChecksum
  rw [hplen]
  congr 1
  refine Finset.sum_congr rfl fun k hk => ?_
  rw [Finset.mem_range] at hk
  rw [hbuf (1 + k) (by omega) (by omega)]

/-- VALIDATE reads no byte at or beyond RXCNT (R142): every check looks at a stored byte, once the checks
before it have passed. -/
theorem judge_congr_stored {s t : State} (hcnt : t.rxcnt = s.rxcnt)
    (hbuf : ∀ k, k < s.rxcnt.toNat → byteAt t.rxbuf k = byteAt s.rxbuf k) : judge t = judge s := by
  have hplen := storedPlen_congr hcnt hbuf
  rw [judge_eq, judge_eq, hcnt, hplen]
  by_cases hlong : s.rxcnt.toNat < 7
  · simp [hlong]
  · rw [hbuf 0 (by omega)]
    by_cases hlength : 7 + storedPlen s = s.rxcnt.toNat
    · rw [hbuf (6 + storedPlen s) (by omega), hbuf (5 + storedPlen s) (by omega),
        storedChecksum_congr hplen fun k _ hk => hbuf k (by omega)]
    · simp [hlength]

/-! ## The result -/

theorem eq_of_exec_validate {s t : State} (hr : s.receiving = false)
    (h : exec .validate s = .next t) :
    t = (recordVerdict s).withResponse [0x00#8, vstatWrite s.vstat (judge s).1] := by
  rw [exec_validate_idle hr, Host.Outcome.next.injEq] at h
  exact h.symm

/-- VALID and REASON after a VALIDATE are its verdict's (R16, R140). -/
theorem valid_and_reason_of_exec_validate {s t : State} (hr : s.receiving = false)
    (h : exec .validate s = .next t) :
    t.vstat.getLsbD 7 = ((judge s).1 == .ok) ∧ t.vstat.extractLsb' 0 3 = (judge s).1.code := by
  obtain rfl := eq_of_exec_validate hr h
  exact ⟨vstatValid_write _ _, vstatReason_write _ _⟩

theorem validateGives_of_judge {s : State} (hr : s.receiving = false) {reason : Reason} {chkcalc : Byte}
    (h : judge s = (reason, chkcalc)) : ValidateGives s reason.code chkcalc := by
  refine ⟨vstatWrite s.vstat reason, ?_, ?_, vstatChecked_write _ _, vstatReason_write _ _⟩
  · rw [exec_validate_idle hr, recordVerdict, h]
  · have hcode : (reason == .ok) = (reason.code == 0#3) := by cases reason <;> rfl
    rw [← hcode]
    exact vstatValid_write _ _

/-- With the reserved bits 0 the result is 0xC0, or 0x40 plus the reason (R16). -/
theorem vstatWrite_of_reserved {v : Byte} (reason : Reason) (h : v.extractLsb' 3 3 = 0#3) :
    vstatWrite v reason = if reason.code = 0#3 then 0xC0#8 else 0x40#8 + reason.code.setWidth 8 := by
  rw [vstatWrite, h]
  cases reason <;> rfl

theorem vstat_reserved_of_legal {v : Byte}
    (h : v ∈ [0x00#8, 0xC0#8, 0x41#8, 0x42#8, 0x43#8, 0x44#8, 0x45#8]) : v.extractLsb' 3 3 = 0#3 := by
  revert h; revert v; decide

/-- Settles O22: each clause's premises decide the checks of `judge_eq` up to the one that fails. -/
theorem validateMakesItsChecksInOrder : Obligations.ValidateMakesItsChecksInOrder := by
  refine ⟨oneByteCommand_of_opcode (o := .validate) rfl fun _ => rfl, fun _ => exec_validate_busy,
    fun s hr => ⟨fun hshort => ?_, fun hlong hheader => ?_, fun hlong hheader hlength => ?_,
      fun hlong hheader hlength hterm => ?_, fun hlong hheader hlength hterm hsum => ?_,
      fun hlong hheader hlength hterm hsum => ?_⟩, fun s t hi hr h => ?_⟩
  · exact validateGives_of_judge (reason := .short) hr (by simp [judge_eq, hshort])
  · exact validateGives_of_judge (reason := .header) hr
      (by simp [judge_eq, Nat.not_lt.2 hlong, hheader])
  · exact validateGives_of_judge (reason := .length) hr
      (by simp [judge_eq, Nat.not_lt.2 hlong, hheader, hlength])
  · exact validateGives_of_judge (reason := .terminator) hr
      (by simp [judge_eq, Nat.not_lt.2 hlong, hheader, hlength, hterm])
  · exact validateGives_of_judge (reason := .checksum) hr
      (by simp [judge_eq, Nat.not_lt.2 hlong, hheader, hlength, hterm, hsum])
  · exact validateGives_of_judge (reason := .ok) hr
      (by simp [judge_eq, Nat.not_lt.2 hlong, hheader, hlength, hterm, hsum])
  · obtain ⟨_, hreason⟩ := valid_and_reason_of_exec_validate hr h
    rw [hreason, eq_of_exec_validate hr h]
    exact vstatWrite_of_reserved _ (vstat_reserved_of_legal hi.vstat_legal)

theorem vstatWrite_vstatWrite (v : Byte) (a b : Reason) :
    vstatWrite (vstatWrite v a) b = vstatWrite v b := by
  rw [vstatWrite, vstatWrite_reserved]
  rfl

/-- Settles O23: VALIDATE leaves the bytes it reads as they are, and writes its fields anew. -/
theorem validateTwiceGivesTheSameResult : Obligations.ValidateTwiceGivesTheSameResult := by
  intro s t hr h
  obtain rfl := eq_of_exec_validate hr h
  refine ⟨_, exec_validate_idle hr, ?_⟩
  have hjudge : judge (recordVerdict s) = judge s := judge_congr rfl rfl
  simp [hjudge, vstatWrite_vstatWrite]

/-- Settles O24: the response and what is written follow from the verdict, which reads the stored bytes
alone; a refusal reads none. -/
theorem validateReadsOnlyStoredBytes : Obligations.ValidateReadsOnlyStoredBytes := by
  intro s buf hbuf
  have hjudge : judge { s with rxbuf := buf } = judge s := judge_congr_stored rfl hbuf
  cases hr : s.receiving
  · refine ⟨_, exec_validate_idle hr, ?_⟩
    rw [exec_validate_idle (s := { s with rxbuf := buf }) hr, recordVerdict, hjudge]
    rfl
  · exact ⟨_, exec_validate_busy hr, exec_validate_busy (s := { s with rxbuf := buf }) hr⟩

end Sys2Proof.Machine
end

section
/-! PROOFS. The frame accessors (`42_validator.md` R150 to R157): each is a guarded read, of a stored byte,
of the length field or of CHKCALC. -/

namespace Sys2Proof.Machine

/-- A guarded read in a state with no attempt in progress. -/
theorem guardedRead_idle {i : Instr} {f : State → List Byte} {s : State}
    (h : exec i s = unlessReceiving (fun s => respond (f s) s) s) (hr : s.receiving = false) :
    exec i s = .next (s.withResponse (0x00#8 :: f s)) := by
  rw [h, unlessReceiving_idle hr, respond_eq]

/-- Settles O26: the three accessors read the stored byte at a fixed offset. -/
theorem headerTypeAndCommandAccessors : Obligations.HeaderTypeAndCommandAccessors := by
  simp only [Obligations.HeaderTypeAndCommandAccessors, List.forall_mem_cons, List.not_mem_nil]
  exact ⟨⟨oneByteCommand_of_opcode (o := .frHeader) rfl fun _ => rfl, fun _ => unlessReceiving_busy,
      fun s => guardedRead_idle (exec_frHeader s)⟩,
    ⟨oneByteCommand_of_opcode (o := .frType) rfl fun _ => rfl, fun _ => unlessReceiving_busy,
      fun s => guardedRead_idle (exec_frType s)⟩,
    ⟨oneByteCommand_of_opcode (o := .frCommand) rfl fun _ => rfl, fun _ => unlessReceiving_busy,
      fun s => guardedRead_idle (exec_frCommand s)⟩, nofun⟩

theorem bytes16_framePlen (s : State) :
    bytes16 (framePlen s) =
      if 5 ≤ s.rxcnt.toNat then [byteAt s.rxbuf 3, byteAt s.rxbuf 4] else [0x00#8, 0x00#8] := by
  unfold framePlen
  split
  · exact bytes16_be16 _ _
  · rfl

/-- Settles O27: the two bytes of the length field are answered as they are stored. -/
theorem plenAccessor : Obligations.PlenAccessor := by
  refine ⟨oneByteCommand_of_opcode (o := .frPlen) rfl fun _ => rfl, fun _ => unlessReceiving_busy,
    fun s hr => ⟨?_, framePlen_toNat s⟩⟩
  rw [guardedRead_idle (exec_frPlen s) hr, bytes16_framePlen]
  split <;> rfl

/-- Settles O28: within the parameter length it is the read of a stored byte. -/
theorem paramAccessor : Obligations.ParamAccessor := by
  refine ⟨twoByteCommand_of_opcode (o := .frParam) (fun _ => rfl) fun _ => rfl,
    fun _ _ => unlessReceiving_busy, fun i s hr => ?_⟩
  rw [guardedRead_idle (exec_frParam i s) hr, framePlen_toNat, storedByte, ite_and]

/-- Settles O29: the offsets are sums of natural numbers, so no offset wraps. -/
theorem checksumAndTerminatorAccessors : Obligations.ChecksumAndTerminatorAccessors := by
  simp only [Obligations.ChecksumAndTerminatorAccessors, List.forall_mem_cons, List.not_mem_nil]
  refine ⟨⟨oneByteCommand_of_opcode (o := .frChecksum) rfl fun _ => rfl,
      fun _ => unlessReceiving_busy, fun s hr => ?_⟩,
    ⟨oneByteCommand_of_opcode (o := .frTerminator) rfl fun _ => rfl,
      fun _ => unlessReceiving_busy, fun s hr => ?_⟩, nofun⟩
  · rw [guardedRead_idle (exec_frChecksum s) hr, framePlen_toNat, storedByte]
  · rw [guardedRead_idle (exec_frTerminator s) hr, framePlen_toNat, storedByte]

/-- A reason of R140's first four checks: CHKCALC was not generated. -/
theorem judge_chkcalc_of_reason {s : State} (h : (judge s).1.code ∈ [1#3, 2#3, 3#3, 4#3]) :
    (judge s).2 = 0x00#8 := by
  refine judge_chkcalc_of_stopped (fun hok => ?_) fun hchk => ?_
  · simp [hok, Reason.code] at h
  · simp [hchk, Reason.code] at h

/-- Settles O30: FR_CHKCALC reads CHKCALC, which is 0x00 while unchecked and where VALIDATE's first four
checks stop it. -/
theorem chkcalcAccessor : Obligations.ChkcalcAccessor := by
  have hread {s : State} := guardedRead_idle (exec_frChkcalc s)
  refine ⟨oneByteCommand_of_opcode (o := .frChkcalc) rfl fun _ => rfl, fun _ => unlessReceiving_busy,
    fun s => hread, fun s hr hv hunchecked => ?_, fun s t hr h hreason => ?_⟩
  · obtain ⟨_, _, hzero⟩ := hv.unchecked hunchecked
    rw [hread hr, hzero]
  · obtain ⟨_, hcode⟩ := valid_and_reason_of_exec_validate hr h
    have hzero := judge_chkcalc_of_reason (hcode ▸ hreason)
    obtain rfl := eq_of_exec_validate hr h
    rw [hread (s := (recordVerdict s).withResponse _) hr, ← hzero]
    rfl

end Sys2Proof.Machine
end

section
/-! PROOFS. A valid frame with one stored byte changed is invalid (`42_validator.md` R161): which check
fails depends on the byte's offset alone. -/

namespace Sys2Proof.Machine

/-- The state with the stored byte `i` replaced by `v`. -/
def State.withByte (s : State) (i : Nat) (v : Byte) : State := { s with rxbuf := writeByte s.rxbuf i v }

theorem withFlippedBit_eq_withByte (s : State) (i k : Nat) :
    s.withFlippedBit i k = s.withByte i (byteAt s.rxbuf i ^^^ BitVec.twoPow 8 k) := rfl

/-- The check that finds a changed byte at offset `i` (R161). -/
def damageReason (s : State) (i : Nat) : Reason :=
  if i = 0 then .header else if i = 3 ∨ i = 4 then .length
  else if i = 6 + storedPlen s then .terminator else .checksum

theorem damageReason_ne_ok (s : State) (i : Nat) : damageReason s i ≠ .ok := by
  unfold damageReason
  split_ifs <;> decide

/-! ## The registers of the changed frame -/

theorem withByte_self {s : State} {i : Nat} (v : Byte) (hi : i < 64) :
    byteAt (s.withByte i v).rxbuf i = v :=
  byteAt_writeByte_self s.rxbuf v hi

theorem withByte_other {s : State} {i j : Nat} (v : Byte) (h : j ≠ i) :
    byteAt (s.withByte i v).rxbuf j = byteAt s.rxbuf j :=
  byteAt_writeByte_ne s.rxbuf v h

theorem storedPlen_withByte_other {s : State} {i : Nat} (v : Byte) (h3 : i ≠ 3) (h4 : i ≠ 4) :
    storedPlen (s.withByte i v) = storedPlen s := by
  unfold storedPlen
  rw [withByte_other v h3.symm, withByte_other v h4.symm]
  rfl

theorem storedPlen_withByte_ne {s : State} {i : Nat} {v : Byte} (hlong : 5 ≤ s.rxcnt.toNat)
    (hi : i = 3 ∨ i = 4) (hne : v ≠ byteAt s.rxbuf i) :
    storedPlen (s.withByte i v) ≠ storedPlen s := by
  have hnat : v.toNat ≠ (byteAt s.rxbuf i).toNat := fun h => hne (BitVec.eq_of_toNat_eq h)
  have hlong' : 5 ≤ (s.withByte i v).rxcnt.toNat := hlong
  rw [storedPlen, storedPlen, if_pos hlong, if_pos hlong']
  obtain rfl | rfl := hi
  · rw [withByte_self v (by omega), withByte_other v (by omega)]
    omega
  · rw [withByte_self v (by omega), withByte_other v (by omega)]
    omega

/-- A sum of bytes modulo 256 changes when exactly one of its bytes does. -/
theorem ofNat_sum_ne_of_one_changed {f g : Nat → Byte} {m k : Nat} (hk : k < m) (hne : g k ≠ f k)
    (hother : ∀ j, j ≠ k → g j = f j) :
    BitVec.ofNat 8 (∑ j ∈ Finset.range m, (g j).toNat) ≠
      BitVec.ofNat 8 (∑ j ∈ Finset.range m, (f j).toNat) := by
  have hmem : k ∈ Finset.range m := Finset.mem_range.2 hk
  have hrest : ∑ j ∈ (Finset.range m).erase k, (g j).toNat =
      ∑ j ∈ (Finset.range m).erase k, (f j).toNat :=
    Finset.sum_congr rfl fun j hj => by rw [hother j (Finset.ne_of_mem_erase hj)]
  rw [← Finset.add_sum_erase _ _ hmem,
    ← Finset.add_sum_erase (Finset.range m) (fun j => (f j).toNat) hmem, hrest, BitVec.ofNat_add, BitVec.ofNat_add]
  simpa using hne

theorem storedChecksum_withByte_ne {s : State} {i : Nat} {v : Byte} (h3 : i ≠ 3) (h4 : i ≠ 4)
    (hpos : 1 ≤ i) (hcovered : i < 5 + storedPlen s) (hi : i < 64) (hne : v ≠ byteAt s.rxbuf i) :
    storedChecksum (s.withByte i v) ≠ storedChecksum s := by
  obtain ⟨k, rfl⟩ := Nat.exists_eq_add_of_le hpos
  rw [storedChecksum, storedPlen_withByte_other v h3 h4]
  exact ofNat_sum_ne_of_one_changed (k := k) (by omega) (by rwa [withByte_self v hi])
    fun j hj => withByte_other v (by omega)

/-- A change of the checksum byte or of a byte it covers, the length field left alone, breaks their
agreement. -/
theorem checksum_withByte_fails {s : State} {i : Nat} {v : Byte}
    (hsum : storedChecksum s = byteAt s.rxbuf (5 + storedPlen s)) (h0 : i ≠ 0) (h3 : i ≠ 3)
    (h4 : i ≠ 4) (hlast : i < 6 + storedPlen s) (hi : i < 64) (hne : v ≠ byteAt s.rxbuf i) :
    storedChecksum (s.withByte i v) ≠ byteAt (s.withByte i v).rxbuf (5 + storedPlen s) := by
  by_cases h5 : i = 5 + storedPlen s
  · have hsame : storedChecksum (s.withByte i v) = storedChecksum s :=
      storedChecksum_congr (storedPlen_withByte_other v h3 h4) fun k _ hk =>
        withByte_other v (by omega)
    rw [← h5, withByte_self v hi, hsame, hsum, ← h5]
    exact hne.symm
  · rw [withByte_other v (Ne.symm h5), ← hsum]
    exact storedChecksum_withByte_ne h3 h4 (by omega) (by omega) hi hne

/-! ## The check that fails -/

/-- A valid frame ends within the buffer, where its terminator can be read. -/
theorem State.ValidFrame.rxcnt_le {s : State} (hv : s.ValidFrame) : s.rxcnt.toNat ≤ 64 := by
  by_contra hlt
  have hterm := hv.terminator
  rw [byteAt_of_le _ (by have := hv.length; omega)] at hterm
  exact absurd hterm (by decide)

/-- R161, for any change of one stored byte. -/
theorem judge_withByte {s : State} {i : Nat} {v : Byte} (hv : s.ValidFrame) (hi : i < s.rxcnt.toNat)
    (hne : v ≠ byteAt s.rxbuf i) : (judge (s.withByte i v)).1 = damageReason s i := by
  have hi64 : i < 64 := lt_of_lt_of_le hi hv.rxcnt_le
  obtain ⟨hlong, hheader, hlength, hterm, hsum⟩ := hv
  have hself := withByte_self (s := s) v hi64
  have hcnt : (s.withByte i v).rxcnt = s.rxcnt := rfl
  rw [judge_eq, hcnt, if_neg (Nat.not_lt.2 hlong), damageReason]
  by_cases h0 : i = 0
  · subst h0
    rw [hheader] at hne
    simp [hself, hne]
  rw [withByte_other v (Ne.symm h0)]
  by_cases h34 : i = 3 ∨ i = 4
  · have hplen := storedPlen_withByte_ne (by omega) h34 hne
    have hlength' : 7 + storedPlen (s.withByte i v) ≠ s.rxcnt.toNat := by omega
    simp [hheader, hlength', h0, h34]
  obtain ⟨h3, h4⟩ := not_or.1 h34
  rw [storedPlen_withByte_other v h3 h4]
  by_cases h6 : i = 6 + storedPlen s
  · rw [← h6, hself]
    rw [h6, hterm] at hne
    simp [hheader, hlength, hne, h0, h34]
  have hsum' := checksum_withByte_fails hsum h0 h3 h4 (by omega) hi64 hne
  rw [withByte_other v (Ne.symm h6)]
  simp [hheader, hlength, hterm, hsum', h0, h34, h6]

/-- A byte with one of its bits flipped is another byte. -/
theorem xor_twoPow_ne (b : Byte) {k : Nat} (hk : k < 8) : b ^^^ BitVec.twoPow 8 k ≠ b := by
  intro h
  have hbit := congrArg (·.getLsbD k) h
  simp [hk] at hbit

/-- Settles O31: a flipped bit changes its byte, so VALIDATE finds the reason of the byte's offset. -/
theorem singleBitErrorsAreDetected : Obligations.SingleBitErrorsAreDetected := by
  intro s u i k hr h hvalid hi hk
  obtain ⟨hu, _⟩ := valid_and_reason_of_exec_validate hr h
  have hv : s.ValidFrame := (judge_ok_iff s).1 (beq_iff_eq.1 (hu.symm.trans hvalid))
  have hjudge : (judge (s.withFlippedBit i k)).1 = damageReason s i :=
    withFlippedBit_eq_withByte s i k ▸ judge_withByte hv hi (xor_twoPow_ne _ hk)
  have hexec := exec_validate_idle (s := s.withFlippedBit i k) hr
  obtain ⟨ht, hreason⟩ := valid_and_reason_of_exec_validate (s := s.withFlippedBit i k) hr hexec
  refine ⟨_, hexec, ?_, ?_⟩
  · rw [ht, hjudge]
    exact beq_eq_false_iff_ne.2 (damageReason_ne_ok s i)
  · rw [hreason, hjudge, damageReason]
    split_ifs <;> rfl

end Sys2Proof.Machine
end

section
/-! PROOFS. The round-trip law (`42_validator.md` R160): a buffer that holds a frame ENC_BUILD can build
holds a valid frame, whether the bytes were loaded or received. -/

namespace Sys2Proof.Machine

/-! ## The built frame -/

/-- The bytes of a built frame that its checksum covers (R62, R180). -/
def coveredBytes (c : Byte) (params : List Byte) : List Byte :=
  0x00#8 :: c :: (bytes16 (BitVec.ofNat 16 params.length) ++ params)

theorem coveredBytes_length (c : Byte) (params : List Byte) :
    (coveredBytes c params).length = 4 + params.length := by
  simp [coveredBytes, bytes16]
  omega

theorem buildFrame_eq (c : Byte) (params : List Byte) :
    buildFrame c params =
      0xAA#8 :: (coveredBytes c params ++ [sumMod256 (coveredBytes c params), 0xDD#8]) := rfl

/-- The two bytes of the length field hold the number of parameters. -/
theorem buildFrame_plen (c : Byte) {params : List Byte} (hl : params.length ≤ 56) :
    ((buildFrame c params).getD 3 0x00#8).toNat * 256 + ((buildFrame c params).getD 4 0x00#8).toNat =
      params.length := by
  have hbe := congrArg BitVec.toNat (be16_bytes16 (BitVec.ofNat 16 params.length))
  rw [be16_toNat, BitVec.toNat_ofNat, Nat.mod_eq_of_lt (by omega)] at hbe
  exact hbe

theorem buildFrame_checksum (c : Byte) (params : List Byte) :
    (buildFrame c params).getD (5 + params.length) 0x00#8 = sumMod256 (coveredBytes c params) := by
  have hlen := coveredBytes_length c params
  rw [buildFrame_eq, show 5 + params.length = (coveredBytes c params).length + 1 by omega]
  simp

theorem buildFrame_terminator (c : Byte) (params : List Byte) :
    (buildFrame c params).getD (6 + params.length) 0x00#8 = 0xDD#8 := by
  have hlen := coveredBytes_length c params
  rw [buildFrame_eq, show 6 + params.length = (coveredBytes c params).length + 1 + 1 by omega]
  simp

theorem buildFrame_covered (c : Byte) (params : List Byte) :
    ((buildFrame c params).drop 1).take (4 + params.length) = coveredBytes c params := by
  rw [buildFrame_eq, List.drop_one, List.tail_cons]
  exact List.take_left' (coveredBytes_length c params)

/-- A built frame up to its terminator. -/
def frameBody (c : Byte) (params : List Byte) : List Byte :=
  0xAA#8 :: (coveredBytes c params ++ [sumMod256 (coveredBytes c params)])

theorem frameBody_length (c : Byte) (params : List Byte) :
    (frameBody c params).length = 6 + params.length := by
  simp [frameBody, coveredBytes_length]
  omega

theorem buildFrame_eq_body (c : Byte) (params : List Byte) :
    buildFrame c params = frameBody c params ++ [0xDD#8] := by
  simp [buildFrame_eq, frameBody]

/-- R160's premise on the offsets 1 to 5 + n: the header is no terminator either. -/
theorem terminator_notMem_frameBody {c : Byte} {params : List Byte}
    (h : ∀ k, 1 ≤ k → k ≤ 5 + params.length → (buildFrame c params).getD k 0x00#8 ≠ 0xDD#8) :
    0xDD#8 ∉ frameBody c params := by
  intro hmem
  obtain ⟨k, hk, hbyte⟩ := List.mem_iff_getElem.1 hmem
  have hlen := frameBody_length c params
  cases k with
  | zero =>
    have hheader : 0xAA#8 = 0xDD#8 := hbyte
    exact absurd hheader (by decide)
  | succ k =>
    refine h (k + 1) (by omega) (by omega) ?_
    rw [buildFrame_eq_body, List.getD_append _ _ _ _ hk, List.getD_eq_getElem _ _ hk, hbyte]

/-! ## A stored copy of it -/

/-- The checksum's bytes are a piece of the stored ones. -/
theorem checksummedBytes_eq_stored {s : State} {plen : Nat} (h : 5 + plen ≤ s.rxcnt.toNat) :
    checksummedBytes s.rxbuf plen = ((storedBytes s).drop 1).take (4 + plen) := by
  apply List.ext_getElem
  · simp [checksummedBytes, storedBytes_length]
    omega
  · intro k _ _
    simp [checksummedBytes, storedBytes, Nat.add_comm]

theorem validFrame_of_stored {s : State} {c : Byte} {params : List Byte} (hl : params.length ≤ 56)
    (h : storedBytes s = buildFrame c params) : s.ValidFrame := by
  have hcnt : s.rxcnt.toNat = 7 + params.length := by
    rw [← storedBytes_length, h, buildFrame_length]
  have hread k (hk : k < 7 + params.length) :
      byteAt s.rxbuf k = (buildFrame c params).getD k 0x00#8 :=
    h ▸ byteAt_eq_getD_storedBytes (hcnt ▸ hk) 0x00#8
  have hplen : storedPlen s = params.length := by
    rw [storedPlen, if_pos (by omega), hread 3 (by omega), hread 4 (by omega), buildFrame_plen c hl]
  have hsum : storedChecksum s = sumMod256 (coveredBytes c params) := by
    rw [← checksum8_eq_storedChecksum, hplen, checksum8, checksummedBytes_eq_stored (by omega), h,
      buildFrame_covered]
  exact
    { long := by omega
      header := hread 0 (by omega)
      length := by omega
      terminator := by rw [hplen, hread _ (by omega), buildFrame_terminator]
      checksum := by rw [hplen, hsum, hread _ (by omega), buildFrame_checksum] }

theorem enclen_of_build {c : Byte} {params : List Byte} {s t : State} (hl : params.length ≤ 56)
    (h : exec (.encBuild c params) s = .next t) : t.enclen.toNat = 7 + params.length := by
  rw [exec_encBuild, encodeFrame_ok s hl, Host.Outcome.next.injEq] at h
  rw [← recordFrame_enclen c s hl, ← h]
  rfl

theorem encbuf_of_build {c : Byte} {params : List Byte} {s t : State} (hl : params.length ≤ 56)
    (h : exec (.encBuild c params) s = .next t) (k : Nat) :
    byteAt t.encbuf k = (buildFrame c params).getD k 0x00#8 := by
  rw [exec_encBuild, encodeFrame_ok s hl, Host.Outcome.next.injEq] at h
  rw [← recordFrame_byteAt s hl, ← h]
  rfl

/-- A frame built within the limit is read out of ENCBUF whole. -/
theorem encodedBytes_of_build {c : Byte} {params : List Byte} {s t : State} (hl : params.length ≤ 56)
    (h : exec (.encBuild c params) s = .next t) : encodedBytes t = buildFrame c params := by
  have hlen : t.enclen.toNat = (buildFrame c params).length := by
    rw [enclen_of_build hl h, buildFrame_length]
  apply List.ext_getElem
  · simp [encodedBytes, hlen]
  · intro k _ hk
    simp only [encodedBytes, List.getElem_map, List.getElem_range]
    rw [encbuf_of_build hl h, List.getD_eq_getElem _ _ hk]

theorem storedBytes_withStored {bytes : List Byte} (s : State) (hl : bytes.length ≤ 64) :
    storedBytes (s.withStored bytes) = bytes := by
  have hcnt : (s.withStored bytes).rxcnt.toNat = bytes.length := by
    simp only [State.withStored, BitVec.toNat_ofNat]
    omega
  apply List.ext_getElem
  · rw [storedBytes_length, hcnt]
  · intro k _ hk
    simp [storedBytes, State.withStored, byteAt_bufferOf_of_fits hl, hk]

theorem validFrame_withStored (s : State) (c : Byte) {params : List Byte} (hl : params.length ≤ 56) :
    (s.withStored (buildFrame c params)).ValidFrame :=
  validFrame_of_stored hl (storedBytes_withStored s (by rw [buildFrame_length]; omega))

/-! ## The two forms of the law -/

/-- Settles O36: the loaded bytes are the built frame's, so VALIDATE finds a valid frame. -/
theorem encodedFramesPassValidate : Obligations.EncodedFramesPassValidate := by
  intro c params s hl hr hreserved
  have hbuild : exec (.encBuild c params) s = .next ((recordFrame c params s).withResponse [0x00#8]) :=
    encodeFrame_ok s hl
  refine ⟨_, _, hbuild, exec_validate_idle hr, ?_⟩
  rw [encodedBytes_of_build hl hbuild, (judge_ok_iff _).2 (validFrame_withStored _ c hl)]
  exact congrArg (fun v => some [0x00#8, v]) (vstatWrite_of_reserved .ok hreserved)

/-- Settles O37: the engine stores the queued frame through its one terminator, so the buffer holds the
built frame and VALIDATE finds it valid. -/
theorem encodedFramesAreReceivedWhole : Obligations.EncodedFramesAreReceivedWhole := by
  intro c params s t q more hl hbuild hinner hr hzero hq hturns
  have hlen := frameBody_length c params
  have hcount : 7 + params.length = (frameBody c params).length + 1 := by omega
  have hclean := terminator_notMem_frameBody fun k h1 hk => encbuf_of_build hl hbuild k ▸ hinner k h1 hk
  rw [encodedBytes_of_build hl hbuild, buildFrame_eq_body, List.append_assoc] at hq
  rw [hcount] at hturns ⊢
  obtain ⟨u, hrun, hru, hdone, hres, hcnt, hbytes, hqu, -⟩ :=
    attemptTakesThroughTheFirstTerminator t _ q more hr hzero hq hclean (by omega) hturns
  have hstored : storedBytes u = buildFrame c params := by
    rw [buildFrame_eq_body]
    apply List.ext_getElem
    · simp [storedBytes_length, hcnt]
    · intro k hk hk'
      rw [← List.getD_eq_getElem _ 0x00#8 hk, ← List.getD_eq_getElem _ 0x00#8 hk',
        ← byteAt_eq_getD_storedBytes (storedBytes_length u ▸ hk)]
      exact hbytes k (by simpa using hk')
  have hexec := exec_validate_idle hru
  obtain ⟨hvalid, _⟩ := valid_and_reason_of_exec_validate hru hexec
  rw [(judge_ok_iff u).2 (validFrame_of_stored hl hstored)] at hvalid
  exact ⟨u, _, hrun, by simpa [done_eq] using hdone, hres, hcnt, hqu, hexec, hvalid⟩

end Sys2Proof.Machine
end

section
/-! PROOFS. The command frame encoder (`43_encoder.md` R180 to R187): what a build writes, byte by byte,
what the two reads answer, and that the encoder and the receiver do not touch each other's registers. -/

namespace Sys2Proof.Machine

/-! ## The frame a build writes -/

/-- Within ENC_BUILD's limit the length field is 0x00 and the count itself. -/
theorem bytes16_ofNat_of_lt {n : Nat} (h : n < 256) :
    bytes16 (BitVec.ofNat 16 n) = [0x00#8, BitVec.ofNat 8 n] := by
  have hbe : be16 0x00#8 (BitVec.ofNat 8 n) = BitVec.ofNat 16 n := by
    apply BitVec.eq_of_toNat_eq
    rw [be16_toNat]
    simp only [BitVec.toNat_ofNat]
    omega
  rw [← hbe, bytes16_be16]

/-- The checksum is the sum of command, count and parameters: type and high length byte add nothing. -/
theorem sumMod256_coveredBytes (c : Byte) {params : List Byte} (hl : params.length ≤ 56) :
    sumMod256 (coveredBytes c params) =
      BitVec.ofNat 8 (c.toNat + params.length + (params.map BitVec.toNat).sum) := by
  rw [coveredBytes, bytes16_ofNat_of_lt (by omega), sumMod256]
  simp [Nat.mod_eq_of_lt (show params.length < 256 by omega), Nat.add_assoc]

/-- R180's frame, field by field. -/
theorem buildFrame_eq_fields (c : Byte) {params : List Byte} (hl : params.length ≤ 56) :
    buildFrame c params =
      0xAA#8 :: 0x00#8 :: c :: 0x00#8 :: BitVec.ofNat 8 params.length :: (params ++
        [BitVec.ofNat 8 (c.toNat + params.length + (params.map BitVec.toNat).sum), 0xDD#8]) := by
  rw [buildFrame_eq, sumMod256_coveredBytes c hl, coveredBytes, bytes16_ofNat_of_lt (by omega)]
  simp

theorem buildFrame_param (c : Byte) {params : List Byte} {k : Nat} (hl : params.length ≤ 56)
    (hk : k < params.length) :
    (buildFrame c params).getD (5 + k) 0x00#8 = params.getD k 0x00#8 := by
  rw [buildFrame_eq_fields c hl, Nat.add_comm 5 k]
  exact List.getD_append _ _ _ _ hk

/-- What a build within the limit leaves: the frame with zeros after it, its length, an OK response, and
everything outside the encoder as it was. -/
theorem build_writes {i : Instr} {c : Byte} {params frame : List Byte}
    (hx : ∀ s, exec i s = encodeFrame c params s) (s : State) (hl : params.length ≤ 56)
    (hf : buildFrame c params = frame) :
    ∃ t, exec i s = .next t ∧ t.enclen.toNat = frame.length ∧
      (∀ k, k < 64 → byteAt t.encbuf k = frame.getD k 0x00#8) ∧
      t.responses = [0x00#8] :: s.responses ∧ SameReceiver s t ∧ SameEnvironment s t := by
  subst hf
  refine ⟨_, (hx s).trans (encodeFrame_ok s hl), ?_, fun k _ => recordFrame_byteAt s hl k, rfl,
    ⟨rfl, rfl, rfl, rfl, rfl, rfl, rfl⟩, sameEnvironment_refl s⟩
  rw [buildFrame_length, ← recordFrame_enclen c s hl]
  rfl

/-! ## ENC_BUILD -/

theorem decode_encBuild {c hi lo : Byte} {params : List Byte}
    (h : params.length = hi.toNat * 256 + lo.toNat) :
    decode (0x30#8 :: c :: hi :: lo :: params) = .ok (.encBuild c params) :=
  (decode_code_ok (o := .encBuild)).2
    (buildOperands_ok.2 ⟨c, hi, lo, params, rfl, h.trans (be16_toNat hi lo).symm, rfl⟩)

theorem hostCommand_encBuild_format {c hi lo : Byte} {params : List Byte}
    (h : params.length ≠ hi.toNat * 256 + lo.toNat) (s : State) :
    hostCommand (0x30#8 :: c :: hi :: lo :: params) s = .next (s.withResponse [0x04#8]) := by
  have hlen : operandLength Opcode.encBuild.code (c :: hi :: lo :: params) =
      3 + (hi.toNat * 256 + lo.toNat) := rfl
  refine hostCommand_format (o := .encBuild) ?_ s
  rw [hlen]
  simp only [List.length_cons]
  omega

/-- Settles O32: the buffer holds `buildFrame`, whose fields stand where the rule puts them. -/
theorem encBuildWritesTheFrame : Obligations.EncBuildWritesTheFrame := by
  refine ⟨fun _ _ _ _ => decode_encBuild, fun _ _ _ _ s h => hostCommand_encBuild_format h s,
    fun _ s h => hostCommand_shortBuild h s, fun _ _ s h => encodeFrame_range s h,
    fun c params s hl => ?_⟩
  obtain ⟨t, hx, hlen, hbyte, hresp, hrecv, henv⟩ := build_writes (exec_encBuild c params) s hl rfl
  rw [buildFrame_length] at hlen
  have hfield := buildFrame_eq_fields c hl ▸ hbyte
  refine ⟨t, hx, hfield 0 (by omega), hfield 1 (by omega), hfield 2 (by omega), hfield 3 (by omega),
    hfield 4 (by omega), fun k hk => ?_, ?_, ?_, fun k hk hk64 => ?_, hlen, hresp, hrecv, henv⟩
  · rw [hbyte _ (by omega), buildFrame_param c hl hk]
  · rw [hbyte _ (by omega), buildFrame_checksum, sumMod256_coveredBytes c hl]
  · rw [hbyte _ (by omega), buildFrame_terminator]
  · rw [hbyte k hk64, List.getD_eq_default _ _ (by rw [buildFrame_length]; omega)]

/-! ## The fixed commands -/

/-- Settles O33: each of the four is ENC_BUILD's meaning on the rule's operands, whose frame is the listed
one. -/
theorem fixedCommandsWriteTheirFrames : Obligations.FixedCommandsWriteTheirFrames := by
  simp only [Obligations.FixedCommandsWriteTheirFrames, List.forall_mem_cons, List.not_mem_nil]
  exact ⟨⟨oneByteCommand_of_opcode (o := .encGetModuleInfo) rfl fun _ => rfl,
      fun s => ⟨rfl, build_writes exec_encGetModuleInfo s (by decide) (by decide)⟩⟩,
    ⟨oneByteCommand_of_opcode (o := .encSinglePoll) rfl fun _ => rfl,
      fun s => ⟨rfl, build_writes exec_encSinglePoll s (by decide) (by decide)⟩⟩,
    ⟨oneByteCommand_of_opcode (o := .encStartMultiPoll) rfl fun _ => rfl,
      fun s => ⟨rfl, build_writes exec_encStartMultiPoll s (by decide) (by decide)⟩⟩,
    ⟨oneByteCommand_of_opcode (o := .encStopMultiPoll) rfl fun _ => rfl,
      fun s => ⟨rfl, build_writes exec_encStopMultiPoll s (by decide) (by decide)⟩⟩, nofun⟩

/-! ## ENC_LEN and ENC_READ -/

theorem builtByte_of_not_built {s : State} {i : Nat} (h : s.enclen.toNat ≤ i ∨ 64 ≤ i) :
    builtByte s i = 0x00#8 := by
  unfold builtByte
  split
  · exact byteAt_of_le _ (by omega)
  · rfl

/-- Settles O34: both commands are reads, of ENCLEN and of `builtByte`. -/
theorem encoderOutputReads : Obligations.EncoderOutputReads := by
  refine ⟨oneByteCommand_of_opcode (o := .encLen) rfl fun _ => rfl,
    twoByteCommand_of_opcode (o := .encRead) (fun _ => rfl) fun _ => rfl,
    fun s => ?_, fun i s => ?_, fun i s h => ?_⟩
  · rw [exec_encLen, respond_eq, BitVec.ofNat_toNat]
  · rw [exec_encRead, respond_eq, builtByte]
  · rw [exec_encRead, respond_eq, builtByte_of_not_built h]

/-! ## The encoder's commands and the receiver -/

/-- Each encode command is a build of some operands, whatever the state (R181 to R184). -/
theorem exec_eq_encodeFrame {i : Instr} (h : encodeCommand i = true) :
    ∃ c params, ∀ s, exec i s = encodeFrame c params s := by
  cases i with
  | encBuild c params => exact ⟨c, params, exec_encBuild c params⟩
  | encGetModuleInfo => exact ⟨_, _, exec_encGetModuleInfo⟩
  | encSinglePoll => exact ⟨_, _, exec_encSinglePoll⟩
  | encStartMultiPoll => exact ⟨_, _, exec_encStartMultiPoll⟩
  | encStopMultiPoll => exact ⟨_, _, exec_encStopMultiPoll⟩
  | _ => cases h

/-- The encoder's other commands answer a byte of its registers (R185, R186). -/
theorem exec_eq_encoderRead {i : Instr} (h : encoderCommand i = true) (hi : encodeCommand i = false) :
    ∃ f : Buffer → BitVec 7 → Byte, ∀ s, exec i s = respond [f s.encbuf s.enclen] s := by
  cases i with
  | encLen => exact ⟨fun _ len => len.setWidth 8, exec_encLen⟩
  | encRead k =>
    exact ⟨fun buf len => if k.toNat < len.toNat then byteAt buf k.toNat else 0x00#8, exec_encRead k⟩
  | encBuild | encGetModuleInfo | encSinglePoll | encStartMultiPoll | encStopMultiPoll => cases hi
  | _ => cases h

/-- An action of the block that neither reads nor writes the receiver's registers or the channel, and does
not answer BUSY: with another receiver half it goes the same way and leaves that half (R187). -/
def IgnoresReceiver (act : State → Result) : Prop :=
  ∀ s r : State, ∃ t b, act s = .next t ∧ SameReceiver s t ∧ t.channel = s.channel ∧
    act (s.withReceiver r) = .next (t.withReceiver r) ∧
    t.responses.head? = some b ∧ b.head? ≠ some 0x01#8

theorem sameReceiver_refl (s : State) : SameReceiver s s := ⟨rfl, rfl, rfl, rfl, rfl, rfl, rfl⟩

theorem ignoresReceiver_encodeFrame (c : Byte) (params : List Byte) :
    IgnoresReceiver (encodeFrame c params) := by
  intro s r
  by_cases h : params.length ≤ 56
  · exact ⟨_, _, encodeFrame_ok s h, sameReceiver_refl s, rfl, encodeFrame_ok _ h, rfl, by decide⟩
  · have h' : 56 < params.length := by omega
    exact ⟨_, _, encodeFrame_range s h', sameReceiver_refl s, rfl, encodeFrame_range _ h', rfl,
      by decide⟩

theorem ignoresReceiver_encoderRead (f : Buffer → BitVec 7 → Byte) :
    IgnoresReceiver fun s => respond [f s.encbuf s.enclen] s :=
  fun s _ => ⟨_, _, respond_eq _ _, sameReceiver_refl s, rfl, respond_eq _ _, rfl, by simp⟩

theorem exec_ignoresReceiver {i : Instr} (h : encoderCommand i = true) :
    IgnoresReceiver (exec i) := by
  cases hi : encodeCommand i
  · obtain ⟨f, hx⟩ := exec_eq_encoderRead h hi
    exact funext hx ▸ ignoresReceiver_encoderRead f
  · obtain ⟨c, params, hx⟩ := exec_eq_encodeFrame hi
    exact funext hx ▸ ignoresReceiver_encodeFrame c params

/-! ## The other commands and the encoder -/

/-- An action of the block that neither reads nor writes ENCBUF and ENCLEN: with other contents it goes the
same way and leaves those (R187). -/
def IgnoresEncoder (act : State → Result) : Prop :=
  ∀ s e : State, ∃ t, act s = .next t ∧ SameEncoder s t ∧
    act (s.withEncoder e) = .next (t.withEncoder e)

/-- An answer ignores the encoder where its result bytes and what it writes first do. -/
theorem ignoresEncoder_respond {f : State → List Byte} {g : State → State}
    (hf : ∀ s e, f (s.withEncoder e) = f s) (hg : ∀ s, SameEncoder s (g s))
    (hge : ∀ s e, g (s.withEncoder e) = (g s).withEncoder e) :
    IgnoresEncoder fun s => respond (f s) (g s) := by
  intro s e
  refine ⟨_, respond_eq _ _, hg s, ?_⟩
  simp only [hf, hge]
  rfl

theorem ignoresEncoder_read {f : State → List Byte} (hf : ∀ s e, f (s.withEncoder e) = f s) :
    IgnoresEncoder fun s => respond (f s) s :=
  ignoresEncoder_respond (g := fun s => s) hf (fun _ => ⟨rfl, rfl⟩) fun _ _ => rfl

theorem ignoresEncoder_unlessReceiving {act : State → Result} (h : IgnoresEncoder act) :
    IgnoresEncoder (unlessReceiving act) := by
  intro s e
  cases hr : s.receiving
  · rw [unlessReceiving_idle hr, unlessReceiving_idle (s := s.withEncoder e) hr]
    exact h s e
  · exact ⟨_, unlessReceiving_busy hr, ⟨rfl, rfl⟩, unlessReceiving_busy (s := s.withEncoder e) hr⟩

theorem exec_ignoresEncoder {i : Instr} (h : encoderCommand i = false) : IgnoresEncoder (exec i) := by
  cases i with
  | rxStart t | validate =>
    exact ignoresEncoder_unlessReceiving
      (ignoresEncoder_respond (fun _ _ => rfl) (fun _ => ⟨rfl, rfl⟩) fun _ _ => rfl)
  | rxStatus | rxCount | rxElapsed => exact ignoresEncoder_read fun _ _ => rfl
  | rxRead k | frHeader | frType | frCommand | frPlen | frParam k | frChecksum | frTerminator
  | frChkcalc => exact ignoresEncoder_unlessReceiving (ignoresEncoder_read fun _ _ => rfl)
  | encBuild | encGetModuleInfo | encSinglePoll | encStartMultiPoll | encStopMultiPoll | encLen
  | encRead => cases h

/-! ## The engine, time and the encoder -/

theorem engineStep_sameEncoder (s : State) : SameEncoder s (engineStep s) := by
  rcases engineStep_cases s with h | ⟨b, q, _, _, ⟨_, h⟩ | ⟨_, _, h⟩ | ⟨_, _, h⟩⟩ <;>
    rw [h] <;> exact ⟨rfl, rfl⟩

/-- A byte is accepted in the same one of the three ways, which none looks at the encoder. -/
theorem acceptByte_withEncoder (b : Byte) (s e : State) :
    acceptByte b (s.withEncoder e) = (acceptByte b s).withEncoder e := by
  by_cases hf : 63 ≤ s.rxcnt.toNat
  · rw [acceptByte_full b hf, acceptByte_full (s := s.withEncoder e) b hf]
    rfl
  · have hroom : s.rxcnt.toNat < 63 := by omega
    by_cases hb : b = 0xDD#8
    · subst hb
      rw [acceptByte_terminator hroom, acceptByte_terminator (s := s.withEncoder e) hroom]
      rfl
    · rw [acceptByte_plain hroom hb, acceptByte_plain (s := s.withEncoder e) hroom hb]
      rfl

theorem engineStep_withEncoder (s e : State) :
    engineStep (s.withEncoder e) = (engineStep s).withEncoder e := by
  cases hr : s.receiving
  · rw [engineStep_disabled (.inl hr), engineStep_disabled (s := s.withEncoder e) (.inl hr)]
  · cases hq : s.channel with
    | nil => rw [engineStep_disabled (.inr hq), engineStep_disabled (s := s.withEncoder e) (.inr hq)]
    | cons b q =>
      rw [engineStep_enabled hr hq, engineStep_enabled (s := s.withEncoder e) hr hq]
      exact acceptByte_withEncoder b (s.withChannel q) e

/-- A tick goes the same way with any encoder registers, and leaves them. -/
theorem tick_ignoresEncoder (s e : State) :
    SameEncoder s (tick s) ∧ tick (s.withEncoder e) = (tick s).withEncoder e := by
  cases hr : s.receiving
  · rw [tick_outside hr, tick_outside (s := s.withEncoder e) hr]
    exact ⟨⟨rfl, rfl⟩, rfl⟩
  · by_cases he : s.elapsed + 1#32 = s.timeout
    · rw [tick_expiry hr he, tick_expiry (s := s.withEncoder e) hr he]
      exact ⟨⟨rfl, rfl⟩, rfl⟩
    · rw [tick_running hr he, tick_running (s := s.withEncoder e) hr he]
      exact ⟨⟨rfl, rfl⟩, rfl⟩

/-! ## What an encode command leaves in the encoder -/

/-- The operands alone decide whether a build succeeds and what it then leaves; a refused one leaves the
frame that was there (R180, R187). -/
theorem encodeFrame_leaves {c : Byte} {params : List Byte} {s s' t t' : State}
    (ht : encodeFrame c params s = .next t) (ht' : encodeFrame c params s' = .next t') :
    (t.responses.head? = some [0x00#8] ↔ t'.responses.head? = some [0x00#8]) ∧
      (t.responses.head? = some [0x00#8] → t.encbuf = t'.encbuf ∧ t.enclen = t'.enclen) ∧
      (t.responses.head? ≠ some [0x00#8] → SameEncoder s t) := by
  by_cases h : params.length ≤ 56
  · rw [encodeFrame_ok _ h, Host.Outcome.next.injEq] at ht ht'
    subst ht ht'
    simp
  · rw [encodeFrame_range _ (by omega), Host.Outcome.next.injEq] at ht ht'
    subst ht ht'
    simp [SameEncoder]

/-- Settles O35: each command, the engine's step and the tick ignore the half of the state that is not
theirs, and the encode commands are builds. -/
theorem encoderAndReceiverAreIndependent : Obligations.EncoderAndReceiverAreIndependent := by
  refine ⟨fun i s r h => exec_ignoresReceiver h s r, fun i s e h => exec_ignoresEncoder h s e,
    fun s e => ⟨engineStep_sameEncoder s, engineStep_withEncoder s e⟩, tick_ignoresEncoder,
    fun i s s' t t' hi ht ht' => ?_, fun i s h hi => ?_⟩
  · obtain ⟨c, params, hx⟩ := exec_eq_encodeFrame hi
    exact encodeFrame_leaves (hx s ▸ ht) (hx s' ▸ ht')
  · obtain ⟨f, hx⟩ := exec_eq_encoderRead h hi
    exact ⟨_, hx s, rfl, rfl⟩

end Sys2Proof.Machine
end

section
/-! PROOFS. The status a host command completes with (`60_exceptions.md` R210 to R213): a byte string that
is no command by its opcode and length, a command by the answering operation it ends in. -/

namespace Sys2Proof.Machine

/-! ## Completing with a status -/

/-- From `s` the outcome answers status `c`: a status other than OK is the whole response and the only
effect, OK leads one more response (R67, R211). -/
def CompletesWith (c : Byte) (s : State) (x : Result) : Prop :=
  (c ≠ 0x00#8 → x = .next (s.withResponse [c])) ∧
    (c = 0x00#8 → ∃ t result, x = .next t ∧ t.responses = (0x00#8 :: result) :: s.responses)

theorem completesWith_refusal {c : Byte} {s : State} {x : Result} (hc : c ≠ 0x00#8)
    (hx : x = .next (s.withResponse [c])) : CompletesWith c s x :=
  ⟨fun _ => hx, fun h => absurd h hc⟩

/-- An OK response from a state `u` that has received what `s` has. -/
theorem completesWith_respond (result : List Byte) {s u : State} (hu : u.responses = s.responses) :
    CompletesWith 0x00#8 s (respond result u) :=
  ⟨fun h => absurd rfl h, fun _ => ⟨_, result, respond_eq result u, by simp [hu]⟩⟩

/-- A command of the BUSY set answers OK outside an attempt (R213). -/
theorem completesWith_unlessReceiving {bytes : List Byte} {act : State → Result} {s : State}
    (hbusy : expectedStatus bytes true = 0x01#8) (hidle : expectedStatus bytes false = 0x00#8)
    (h : CompletesWith 0x00#8 s (act s)) :
    CompletesWith (expectedStatus bytes s.receiving) s (unlessReceiving act s) := by
  cases hr : s.receiving with
  | true =>
    rw [hbusy]
    exact completesWith_refusal (by decide) (unlessReceiving_busy hr)
  | false => rwa [hidle, unlessReceiving_idle hr]

theorem completesWith_encodeFrame (c : Byte) (params : List Byte) (s : State) :
    CompletesWith (if 56 < params.length then 0x02#8 else 0x00#8) s (encodeFrame c params s) := by
  split
  · next h => exact completesWith_refusal (by decide) (encodeFrame_range s h)
  · next h =>
    rw [encodeFrame_ok s (Nat.not_lt.mp h), ← respond_eq]
    exact completesWith_respond [] rfl

/-! ## The expected status -/

/-- Only ENC_BUILD can be short before its opcode is looked at, and its opcode is listed. -/
theorem expectedStatus_unlisted {op : Byte} (args : List Byte) (receiving : Bool)
    (h : assignedOpcode op = false) : expectedStatus (op :: args) receiving = 0x03#8 := by
  have hop : op ≠ 0x30#8 := by
    rintro rfl
    exact absurd h (by decide)
  simp [expectedStatus, hop, h]

theorem expectedStatus_wrongLength {op : Byte} {args : List Byte} (receiving : Bool)
    (hop : assignedOpcode op = true) (h : args.length ≠ operandLength op args) :
    expectedStatus (op :: args) receiving = 0x04#8 := by
  simp [expectedStatus, hop, h]

theorem declaredCount_bytes16 (c : Byte) (n : BitVec 16) (params : List Byte) :
    declaredCount (c :: (bytes16 n ++ params)) = n.toNat := by
  conv_rhs => rw [← be16_bytes16 n, be16_toNat]
  rfl

/-- ENC_BUILD is outside the BUSY set, so its number of parameters alone decides (R180, R187). -/
theorem expectedStatus_encBuild (c : Byte) {params : List Byte} (receiving : Bool)
    (hl : params.length ≤ 65535) :
    expectedStatus (encode (.encBuild c params)) receiving =
      if 56 < params.length then 0x02#8 else 0x00#8 := by
  have hcount : declaredCount (Instr.encBuild c params).operandBytes = params.length := by
    rw [Instr.operandBytes, declaredCount_bytes16, BitVec.toNat_ofNat]
    omega
  have hlen : (Instr.encBuild c params).operandBytes.length = 3 + params.length := by
    simp +arith [Instr.operandBytes, bytes16]
  have hassigned : assignedOpcode 0x30#8 = true := by decide
  have hbusy : busyOpcode 0x30#8 = false := by decide
  simp [expectedStatus, encode, Instr.opcode, Opcode.code, operandLength, hcount, hlen, hassigned, hbusy]

/-! ## Each command's status -/

theorem completesWith_exec {i : Instr} (hi : i.wellFormed = true) (s : State) :
    CompletesWith (expectedStatus (encode i) s.receiving) s (exec i s) := by
  cases i with
  | rxStatus | rxCount | rxElapsed | encLen | encRead => exact completesWith_respond _ rfl
  | encBuild c params =>
    have hl : params.length ≤ 65535 := by simpa [Instr.wellFormed] using hi
    rw [expectedStatus_encBuild c _ hl, exec_encBuild]
    exact completesWith_encodeFrame c params s
  | encGetModuleInfo => exact completesWith_encodeFrame 0x03#8 [0x00#8] s
  | encSinglePoll => exact completesWith_encodeFrame 0x22#8 [] s
  | encStartMultiPoll => exact completesWith_encodeFrame 0x27#8 [0x22#8, 0xFF#8, 0xFF#8] s
  | encStopMultiPoll => exact completesWith_encodeFrame 0x28#8 [] s
  | rxStart t =>
    rw [exec_rxStart]
    exact completesWith_unlessReceiving rfl rfl (completesWith_respond [] rfl)
  | validate =>
    rw [exec_validate]
    exact completesWith_unlessReceiving rfl rfl (completesWith_respond _ rfl)
  | rxRead | frHeader | frType | frCommand | frPlen | frParam | frChecksum | frTerminator | frChkcalc =>
    refine completesWith_unlessReceiving ?_ ?_ ?_
    · rfl
    · rfl
    · exact completesWith_respond _ rfl

/-- Settles O6: an unlisted opcode and a wrong length are refused as the table says, and what is left is
the encoding of a command, whose arm of `exec` answers. -/
theorem statusFollowsThePriorityOrder : Obligations.StatusFollowsThePriorityOrder := by
  intro bytes s
  change CompletesWith (expectedStatus bytes s.receiving) s (hostCommand bytes s)
  match bytes with
  | [] =>
    exact completesWith_refusal (c := 0x04#8) (by decide) (hostCommand_error (e := .emptyCommand) s rfl)
  | op :: args =>
    cases hop : assignedOpcode op with
    | false =>
      rw [expectedStatus_unlisted args _ hop]
      exact completesWith_refusal (by decide) (hostCommand_illegal args hop s)
    | true =>
      obtain ⟨o, rfl⟩ := exists_code_of_assigned hop
      by_cases hlen : args.length = operandLength o.code args
      · obtain ⟨i, hargs⟩ := (exists_decodeOperands_ok o args).2 hlen
        have hd := decode_code_ok.2 hargs
        obtain ⟨hbytes, hi⟩ := decode_ok_iff.1 hd
        rw [hostCommand_ok s hd, hbytes]
        exact completesWith_exec hi s
      · rw [expectedStatus_wrongLength _ hop hlen]
        exact completesWith_refusal (by decide) (hostCommand_format hlen s)

end Sys2Proof.Machine
end

section
/-! PROOFS. The steps that end or begin a receive attempt (`60_exceptions.md` R218, `41_receiver.md`
R100). -/

namespace Sys2Proof.Machine

/-- Whether an attempt runs is read from the block alone. -/
theorem receiving_of_block {s t : State} (h : t.block = s.block) : t.receiving = s.receiving := by
  have hstat : t.rxstat = s.rxstat := by simp [State.block_eq_iff.1 h]
  rw [receiving_eq, receiving_eq, hstat]

/-- RX_START begins an attempt exactly when its window is not empty (R100). -/
theorem receiving_startAttempt (w : BitVec 32) (s : State) :
    (startAttempt w s).receiving = true ↔ w ≠ 0#32 := by
  rw [receiving_eq, (startAttempt_status w s).1]
  by_cases h : w = 0#32 <;> simp [h]

/-- The next step ends a running attempt: at the window's end, at a terminator or an overflow, or by a
reset (R218). -/
def State.endsAttempt (s : State) : Prop :=
  (s.ticks ∧ s.elapsed + 1#32 = s.timeout) ∨
    (s.engineMoves ∧ (s.channel.head? = some 0xDD#8 ∨ 63 ≤ s.rxcnt.toNat)) ∨ s.resets

/-- A step leaves RECEIVING as it was, begins an attempt by RX_START, or is one of those that end one. -/
theorem receiving_cases_of_step {s t : State} (h : step s = .next t) :
    t.receiving = s.receiving ∨
      (∃ w, s.performs (.rxStart w) ∧ s.receiving = false ∧ t.block = (startAttempt w s).block) ∨
      (s.endsAttempt ∧ t.receiving = false) := by
  cases step_blockStep h with
  | quiet h | verdict _ _ h | build _ _ _ _ _ _ h | append _ _ _ _ _ _ h | arrival _ _ _ h
  | elapse _ _ _ h => exact .inl ((receiving_of_block h).trans rfl)
  | start w hp hs h => exact .inr (.inl ⟨w, hp, hs, h⟩)
  | overflow hm hf h =>
    exact .inr (.inr ⟨.inr (.inl ⟨hm, .inr hf⟩),
      (receiving_of_block h).trans (receiving_completeWith _ _)⟩)
  | terminator hm q hq _ h =>
    exact .inr (.inr ⟨.inr (.inl ⟨hm, .inl (by rw [hq]; rfl)⟩),
      (receiving_of_block h).trans (receiving_terminatorStop _)⟩)
  | expire ht _ he h =>
    exact .inr (.inr ⟨.inl ⟨ht, he⟩, (receiving_of_block h).trans (receiving_completeWith _ _)⟩)
  | reset ht h => exact .inr (.inr ⟨.inr (.inr ht), receiving_of_block h⟩)

/-- Settles O21: RECEIVING changes only in the last two cases of `receiving_cases_of_step`, and RX_START
acts only outside an attempt. -/
theorem onlyTheseStepsEndOrBeginAnAttempt : Obligations.OnlyTheseStepsEndOrBeginAnAttempt := by
  intro s t hst
  rcases receiving_cases_of_step hst with hsame | ⟨w, hp, hidle, hblock⟩ | ⟨hends, hstopped⟩
  · exact ⟨fun hr hr' => by simp [hsame, hr] at hr', fun hr hr' => by simp [hsame, hr] at hr'⟩
  · refine ⟨fun hr _ => by simp [hidle] at hr, fun _ hr' => ?_⟩
    rw [receiving_of_block hblock, receiving_startAttempt] at hr'
    exact ⟨w, hr', hp, by simp [State.block_eq_iff.1 hblock], by simp [State.block_eq_iff.1 hblock]⟩
  · exact ⟨fun _ _ => hends, fun _ hr' => by simp [hstopped] at hr'⟩

end Sys2Proof.Machine
end

section
/-! PROOFS. Reset, the window of an attempt, and the overflow of a queue full of noise
(`70_reset_and_hazards.md` R240, R241, R250, R256). -/

namespace Sys2Proof.Machine

/-! ## Reset -/

theorem step_reset {s : State} {rest : List Turn} (ht : s.turns = .reset :: rest) :
    step s = .next (resetBlock (s.withTurns rest)) := by
  rw [step_of_turn ht, takeTurn]

/-- Power-on reset and any later one leave the registers the same way (R240). -/
theorem eq_resetBlock_of_reset {u : State}
    (h : u = State.reset ∨ ∃ s : State, s.resets ∧ step s = .next u) : ∃ v, u = resetBlock v := by
  obtain rfl | ⟨s, ⟨rest, ht⟩, hst⟩ := h
  · exact ⟨State.reset, rfl⟩
  · rw [step_reset ht, Host.Outcome.next.injEq] at hst
    exact ⟨s.withTurns rest, hst.symm⟩

/-- Settles O38: the state after reset is `resetBlock` of some state, whose registers are the spec's reset
values and whose channel is that state's. -/
theorem resetRestoresEveryRegister : Obligations.ResetRestoresEveryRegister := by
  refine ⟨fun u hu => ?_, fun s ⟨rest, ht⟩ => ⟨_, step_reset ht, rfl⟩⟩
  obtain ⟨v, rfl⟩ := eq_resetBlock_of_reset hu
  simp [reset_rxbuf, reset_encbuf]

/-! ## The window of an attempt -/

/-- The ticks an attempt's window has left (R105). -/
def State.ticksLeft (s : State) : Nat := s.timeout.toNat - s.elapsed.toNat

theorem ticksLeft_pos {s : State} (hi : s.Inv) (hr : s.receiving = true) : 0 < s.ticksLeft :=
  Nat.sub_pos_of_lt (hi.elapsed_lt hr)

theorem ticksLeft_of_block {s t : State} (h : t.block = s.block) : t.ticksLeft = s.ticksLeft := by
  simp [State.ticksLeft, State.block_eq_iff.1 h]

/-- Below the end of the window ELAPSED + 1 does not wrap, so a count takes one tick off the window. -/
theorem ticksLeft_withElapsed_lt {s : State} (hi : s.Inv) (hr : s.receiving = true) :
    (s.withElapsed (s.elapsed + 1#32)).ticksLeft < s.ticksLeft := by
  have hlt := hi.elapsed_lt hr
  simp only [State.ticksLeft, State.withElapsed_fields]
  bv_omega

/-- No step of any agent gives a running attempt a longer window (R14, R15). -/
theorem ticksLeft_le_of_step {s t : State} (hi : s.Inv) (hr : s.receiving = true)
    (hst : step s = .next t) : t.ticksLeft ≤ s.ticksLeft := by
  cases step_blockStep hst with
  | quiet h | build _ _ _ _ _ _ h | overflow _ _ h | append _ _ _ _ _ _ h | terminator _ _ _ _ h
  | arrival _ _ _ h => exact (ticksLeft_of_block h).le
  | start _ _ hs | verdict _ hs => simp [hs] at hr
  | elapse _ _ _ h | expire _ _ _ h =>
    exact (ticksLeft_of_block h).trans_le (ticksLeft_withElapsed_lt hi hr).le
  | reset _ h => exact (ticksLeft_of_block h).trans_le (Nat.zero_le _)

/-- A tick uses up one tick of a running attempt's window. -/
theorem ticksLeft_lt_of_tick {s t : State} {rest : List Turn} (hi : s.Inv) (hr : s.receiving = true)
    (ht : s.turns = .time :: rest) (hst : step s = .next t) : t.ticksLeft < s.ticksLeft := by
  rw [step_time ht, Host.Outcome.next.injEq] at hst
  subst hst
  have hlt := ticksLeft_withElapsed_lt hi hr
  by_cases he : s.elapsed + 1#32 = s.timeout
  · rwa [tick_expiry (s := s.withTurns rest) hr he]
  · rwa [tick_running (s := s.withTurns rest) hr he]

/-- As long as the turns hold every tick the window has left, so they do after a step. -/
theorem ticksLeft_le_count_of_step {s t : State} {turn : Turn} {rest : List Turn} (hi : s.Inv)
    (hr : s.receiving = true) (ht : s.turns = turn :: rest) (hst : step s = .next t)
    (hw : s.ticksLeft ≤ (turn :: rest).count .time) : t.ticksLeft ≤ rest.count .time := by
  by_cases htime : turn = .time
  · subst htime
    rw [List.count_cons_self] at hw
    exact Nat.le_of_lt_succ ((ticksLeft_lt_of_tick hi hr ht hst).trans_le hw)
  · rw [List.count_cons_of_ne htime] at hw
    exact (ticksLeft_le_of_step hi hr hst).trans hw

/-- The attempt is complete: STATE is DONE and RES holds a result (R13). -/
def State.Completed (s : State) : Prop := s.done = true ∧ rxstatRes s.rxstat ≠ 0#3

theorem completed_of_rxstat {s : State} {r : Byte} {res : RecvResult} (hne : res ≠ .none)
    (h : s.rxstat = rxstatWrite r .done res) : s.Completed := by
  rw [State.Completed, done_eq, h, rxstatState_write, rxstatRes_write]
  exact ⟨rfl, fun hcode => hne (recvResult_code_injective hcode)⟩

/-- A step that ends an attempt completes it, unless it is a reset (R103, R104, R105, R240). -/
theorem completed_of_step {s t : State} (hr : s.receiving = true) (hst : step s = .next t)
    (hn : ¬ s.resets) (hend : t.receiving = false) : t.Completed := by
  cases step_blockStep hst with
  | quiet h | build _ _ _ _ _ _ h | append _ _ _ _ _ _ h | arrival _ _ _ h | elapse _ _ _ h =>
    exact absurd (hend.symm.trans ((receiving_of_block h).trans hr)) (by decide)
  | start _ _ hs | verdict _ hs => simp [hs] at hr
  | overflow _ _ h =>
    exact completed_of_rxstat (res := .overflow) (by decide) (congrArg State.rxstat h)
  | terminator _ _ _ _ h =>
    exact completed_of_rxstat (by split <;> decide) (congrArg State.rxstat h)
  | expire _ _ _ h => exact completed_of_rxstat (by split <;> decide) (congrArg State.rxstat h)
  | reset ht => exact absurd ht hn

/-- Turns with every tick the window has left contain the end of the attempt (R250). -/
theorem exists_attempt_end {turns : List Turn} {s : State} (ht : s.turns = turns) (hi : s.Inv)
    (hr : s.receiving = true) (hw : s.ticksLeft ≤ turns.count .time) :
    ∃ k t, k ≤ turns.length ∧ runsTo k s t ∧ t.receiving = false ∧
      (.reset ∉ turns → t.Completed) := by
  induction turns generalizing s with
  | nil => exact absurd hw (Nat.not_le_of_lt (ticksLeft_pos hi hr))
  | cons turn rest ih =>
    obtain ⟨u, hturn⟩ := takeTurn_next turn (s.withTurns rest)
    have hst : step s = .next u := (step_of_turn ht).trans hturn
    cases hu : u.receiving with
    | false =>
      refine ⟨1, u, Nat.le_add_left 1 _, ⟨u, hst, rfl⟩, hu, fun hn => ?_⟩
      refine completed_of_step hr hst ?_ hu
      rintro ⟨_, hreset⟩
      simp [← ht, hreset] at hn
    | true =>
      have hut : u.turns = rest := by rw [step_turns hst, ht, List.drop_one, List.tail_cons]
      obtain ⟨k, t, hk, hrun, hend, hdone⟩ := ih hut (stepKeepsTheInvariants s u hi hst) hu
        (ticksLeft_le_count_of_step hi hr ht hst hw)
      exact ⟨k + 1, t, Nat.succ_le_succ hk, ⟨u, hst, hrun⟩, hend,
        fun hn => hdone fun hmem => hn (List.mem_cons_of_mem turn hmem)⟩

/-- Settles O20, by induction on the turns: every tick uses up the window, no step gives any back, and no
window of a running attempt is empty. -/
theorem attemptsCompleteWithinTheirWindow : Obligations.AttemptsCompleteWithinTheirWindow :=
  fun _ hi hr hw => exists_attempt_end rfl hi hr hw

/-! ## Overflow -/

/-- Settles O19: the engine stores the 63 bytes one by one, and its next step overflows; none of its steps
counts a tick. -/
theorem overflowLosesTheWholeQueue : Obligations.OverflowLosesTheWholeQueue := by
  intro s pre b q more hi hr hzero hq hpre hlen hturns
  have hsplit : s.turns = List.replicate pre.length .engine ++ (.engine :: more) := by
    rw [hturns, hlen, List.replicate_succ', List.append_assoc, List.singleton_append]
  obtain ⟨u, hrun, hbytes, hstat, htmo, hela, hqu, htu⟩ :=
    engine_run_stores hr hq hpre (by simp [hzero, hlen]) hsplit
  have hfull : u.rxcnt.toNat = 63 := by
    rw [← storedBytes_length, hbytes, storedBytes_of_zero hzero, List.nil_append, hlen]
  obtain ⟨t, hst, hqt, -, hbuf, hcnt, hdone, hres, htmot, helat, -, -, -, -, -, -, htt⟩ :=
    sixtyFourthByteOverflows u more b q htu (by rwa [receiving_eq, hstat]) hqu hfull.ge
  have hwindow : t.elapsed.toNat < t.timeout.toNat := by
    rw [htmot, htmo, helat, hela]
    exact hi.elapsed_lt hr
  rw [hlen] at hrun
  exact ⟨t, runsTo_add 63 1 hrun ⟨t, hst, rfl⟩, by rw [done_eq, hdone]; rfl, hres, hcnt,
    hbuf, hqt, hwindow, htt⟩

end Sys2Proof.Machine
end

section
/-! PROOFS. Every step goes on (`60_exceptions.md`): with no turn left the block waits, and a turn of any agent has
a next state, `takeTurn_next`. -/

namespace Sys2Proof.Machine

/-- Settles O42, by cases on the list of turns. -/
theorem everyStepGoesOn : Obligations.EveryStepGoesOn := by
  intro s
  cases hturns : s.turns with
  | nil => exact ⟨s, step_of_no_turn hturns⟩
  | cons turn rest =>
    rw [step_of_turn hturns]
    exact takeTurn_next turn (s.withTurns rest)

end Sys2Proof.Machine
end
